-- ==== Sys2Proof/Word.lean ====
section
/-! DEFINITION. The quantities the block moves: a byte and a bit (00_scope.md R8), and the direction of GPIO-1 (R10). -/

namespace Sys2Proof

/-- An unsigned quantity 0 to 255 (00_scope.md R8). -/
abbrev Byte := BitVec 8

/-- 0 is logic-low and `false`, 1 is logic-high and `true` (00_scope.md R8). -/
abbrev Bit := Bool

/-- `Dir`, the two-valued type {Input, Output} (00_scope.md R10). -/
inductive Dir where
  | input
  | output
deriving DecidableEq, Repr, Inhabited

/-- The value of a bit as a number, 0 or 1: what a comparison on GPIO-1 subtracts the threshold from
(42_dispatch_conditional.md R150, `zext(g)`). -/
def bitValue (b : Bit) : Nat := if b then 1 else 0

end Sys2Proof
end

