-- ==== Sys2Proof/Config.lean ====
section
/-! DEFINITION. What an implementation fixes (the type of the parameter record of 00_scope.md R7; its values stand
in Machine/Params.lean) and the free values: the parameters R7 leaves OPEN, and the moves of the outside world that
no state of the model prescribes. -/

namespace Sys2Proof

/-- The rule-table overflow policy; the spec fixes it (44_rule_table_control_loop.md R191, 90_conflicts.md C2). -/
inductive OverflowPolicy where
  | dropSilent
deriving DecidableEq, Repr

/-- The parameters of 00_scope.md R7, one field each, under the spec's names. The two OPEN parameters are the opaque
constants below. -/
structure Params where
  maxFrameLen : Nat
  ruleCapacity : Nat
  numRegs : Nat
  opRegw : Byte
  opClrh : Byte
  opRifeq : Byte
  opRiflt : Byte
  opMode : Byte
  regSig : Byte
  regM1Pwm : Byte
  regM2Pwm : Byte
  regM1Dir : Byte
  regM2Dir : Byte
  regAin1 : Byte
  regGpio1 : Byte
  minLenRegw : Nat
  minLenClrh : Nat
  minLenRifeq : Nat
  minLenRiflt : Nat
  minLenMode : Nat
  minLenUnk : Nat
  initLen : Nat
  ruleLen : Nat
  overflowPolicy : OverflowPolicy
  /-- `DIR_DECODE`: the direction a MODE operand byte names. -/
  dirDecode : Byte → Dir
  resetSig : Bit
  resetPwm1 : Byte
  resetPwm2 : Byte
  resetDir1 : Bit
  resetDir2 : Bit
  resetGpioOut : Bit
  gpio1ResetDir : Dir
  /-- `GPIO_READBACK`: the level a read of GPIO-1 returns while it is an output, from the output latch and the level
  the outside puts on the pin. -/
  gpioReadback : Bit → Bit → Bit

/-- One move of the three agents of 00_scope.md R11, the steps of the transition system of R12, and the board reset of
70_reset_and_hazards.md R240. -/
inductive Event where
  /-- An RX step of the delivery agent: byte `b` arrives (40_assembler.md R110). -/
  | rx (b : Byte)
  /-- A LOOP step of the loop agent (44_rule_table_control_loop.md R194, R195). -/
  | loop
  /-- The environment gives the analog input the byte `v` (20_memory.md R64). -/
  | ain (v : Byte)
  /-- The HAL's converter delivers the raw sample `raw`, which it reduces to the byte `ain` (43_register_bank.md R173). -/
  | sample (raw : Nat)
  /-- The environment puts level `g` on the GPIO-1 pin (20_memory.md R64). -/
  | gpioPin (g : Bit)
  /-- Power-on or an external reset of the whole board (70_reset_and_hazards.md R240). -/
  | reset
deriving DecidableEq, Repr, Inhabited

/-- `ADC_BITS` − 8, left OPEN by 00_scope.md R7 (log entry 14): nothing is known of it. -/
opaque Config.adcBitsAboveEight : Nat

/-- `ADC_BITS`, a natural number ≥ 8 (92_eei_decisions.md D18). -/
def Config.adcBits : Nat := 8 + Config.adcBitsAboveEight

/-- `ANALOG_REDUCE`, left OPEN by 00_scope.md R7 and 90_conflicts.md C4 (log entry 14). -/
opaque Config.analogReduce : Nat → Byte

/-- The move the outside world makes at the `k`-th moment at which the state prescribes none: any byte, any
interleaving, any input value (20_memory.md R60 and R64; log entry 2). -/
opaque Config.freeEvent : Nat → Event

end Sys2Proof
end

