-- ==== Sys2Proof/Machine/Params.lean ====
section
/-! DEFINITION. The one configuration record: every literal of 00_scope.md R7 with the value its table gives
(92_eei_decisions.md D22: the literals are unaudited, so no step rule writes one). -/

namespace Sys2Proof

/-- The table of 00_scope.md R7. Log entries 5 (reset levels and direction), 10 (`dirDecode`) and 12 (`gpioReadback`)
name the values that are the spec's own decisions. -/
def params : Params where
  maxFrameLen := 10
  ruleCapacity := 10
  numRegs := 7
  opRegw := 0x01
  opClrh := 0x02
  opRifeq := 0x03
  opRiflt := 0x04
  opMode := 0x05
  regSig := 0x00
  regM1Pwm := 0x01
  regM2Pwm := 0x02
  regM1Dir := 0x03
  regM2Dir := 0x04
  regAin1 := 0x05
  regGpio1 := 0x06
  minLenRegw := 4
  minLenClrh := 2
  minLenRifeq := 4
  minLenRiflt := 4
  minLenMode := 4
  minLenUnk := 2
  initLen := 1
  ruleLen := 4
  overflowPolicy := .dropSilent
  dirDecode := fun v => if v = 0x00 then .input else .output
  resetSig := false
  resetPwm1 := 0x00
  resetPwm2 := 0x00
  resetDir1 := false
  resetDir2 := false
  resetGpioOut := false
  gpio1ResetDir := .input
  gpioReadback := fun latch _ => latch

end Sys2Proof
end

