-- ==== Sys2Proof/Syntax.lean ====
section
/-! DEFINITION. The command set: the five commands and the class UNK of 00_scope.md R3, with their operands as
30_encoding.md R81, R82 and R85 to R89 give them. -/

namespace Sys2Proof

/-- One command. The store-mode and the eval-mode behaviour of RIFEQ and RIFLT belong to one command each: they have
one encoding, and the dispatch mode is an argument fixed by the caller (60_exceptions.md R224). -/
inductive Instr where
  /-- REGW, write register (41_dispatch_immediate.md R123). -/
  | regw (reg val : Byte)
  /-- CLRH, clear host signal (41_dispatch_immediate.md R124). -/
  | clrh
  /-- RIFEQ, raise-if-equal (42_dispatch_conditional.md R151, R153). -/
  | rifeq (reg thr : Byte)
  /-- RIFLT, raise-if-less-than (42_dispatch_conditional.md R152, R154). -/
  | riflt (reg thr : Byte)
  /-- MODE, set direction (41_dispatch_immediate.md R125). -/
  | mode (reg val : Byte)
  /-- UNK, every other opcode byte; the seven UNK rows of the opcode table are one class (41_dispatch_immediate.md R126). -/
  | unk (op : Byte)
deriving DecidableEq, Repr

/-- The mnemonic of the opcode table. -/
def Instr.mnemonic : Instr → String
  | .regw _ _ => "REGW"
  | .clrh => "CLRH"
  | .rifeq _ _ => "RIFEQ"
  | .riflt _ _ => "RIFLT"
  | .mode _ _ => "MODE"
  | .unk _ => "UNK"

end Sys2Proof
end

