-- ==== Sys2Proof/WellFormed.lean ====
section
/-! DEFINITION. Which terms of `Instr` stand for commands the encoding can carry. -/

namespace Sys2Proof

/-- The opcode byte names one of the five commands (30_encoding.md R83). -/
def isDefinedOpcode (op : Byte) : Bool :=
  op = params.opRegw ∨ op = params.opClrh ∨ op = params.opRifeq ∨ op = params.opRiflt ∨ op = params.opMode

/-- Every operand byte is allowed in every command (30_encoding.md R85 to R89: no operand is masked or range-checked);
only the opcode byte of UNK is constrained: it is none of the five (41_dispatch_immediate.md R126). -/
def Instr.wf : Instr → Bool
  | .regw _ _ => true
  | .clrh => true
  | .rifeq _ _ => true
  | .riflt _ _ => true
  | .mode _ _ => true
  | .unk op => !isDefinedOpcode op

end Sys2Proof
end

