-- ==== Sys2Proof/Decode.lean ====
section
/-! DEFINITION. Frames, the decoder (total on any frame, any length and any byte string), and the encoder, from
30_encoding.md. -/

namespace Sys2Proof

/-- A frame: bytes at index 0 (reserved) to `MAX_FRAME_LEN` − 1 (30_encoding.md R80). -/
abbrev Frame := Vector Byte params.maxFrameLen

/-- Frame byte `i`; index 1 is the opcode, 2 the register id, 3 the value. (Beyond the last index, which no command
reads, it is 0x00: log entry 16.) -/
def byteAt (f : Frame) (i : Nat) : Byte := f[i]?.getD 0x00

/-- The frame whose received bytes, from index 1 on, are `bs`, all else 0x00 (30_encoding.md R80, R96). -/
def frameOf (bs : List Byte) : Frame := Vector.ofFn fun i => (0x00 :: bs).getD i.val 0x00

/-- Why a frame is pending: the decoder's two rejections, by name. -/
inductive Pending where
  /-- The length is below 2: there is no opcode to read (41_dispatch_immediate.md R121). -/
  | noOpcode
  /-- The command's operands have not all arrived (40_assembler.md R115). -/
  | operandsMissing
deriving DecidableEq, Repr

/-- The command `i`, once the frame has its minimum length. -/
def whenComplete (minLen n : Nat) (i : Instr) : Except Pending Instr :=
  if n < minLen then .error .operandsMissing else .ok i

/-- The command that a frame of length `n` holds, decided in the order of 30_encoding.md R97: the length against 2, below
which there is no opcode byte to read (41_dispatch_immediate.md R121), the opcode byte as a whole (R122), then the length
against the `MINLEN` of the command it names (00_scope.md R7). -/
def decodeFrame (f : Frame) (n : Nat) : Except Pending Instr :=
  if n < 2 then .error .noOpcode
  else
    let op := byteAt f 1
    if op = params.opRegw then whenComplete params.minLenRegw n (.regw (byteAt f 2) (byteAt f 3))
    else if op = params.opClrh then whenComplete params.minLenClrh n .clrh
    else if op = params.opRifeq then whenComplete params.minLenRifeq n (.rifeq (byteAt f 2) (byteAt f 3))
    else if op = params.opRiflt then whenComplete params.minLenRiflt n (.riflt (byteAt f 2) (byteAt f 3))
    else if op = params.opMode then whenComplete params.minLenMode n (.mode (byteAt f 2) (byteAt f 3))
    else whenComplete params.minLenUnk n (.unk op)

/-- The length of the command's frame, counting the reserved index 0 (30_encoding.md R80, R84; `MINLEN`). -/
def Instr.frameLen : Instr → Nat
  | .regw _ _ => params.minLenRegw
  | .clrh => params.minLenClrh
  | .rifeq _ _ => params.minLenRifeq
  | .riflt _ _ => params.minLenRiflt
  | .mode _ _ => params.minLenMode
  | .unk _ => params.minLenUnk

/-- The first command of a byte string as the host sends it, and the bytes after it (30_encoding.md R80: a frame of
length n is n − 1 received bytes, no byte is skipped, R93). -/
def decode (bytes : List Byte) : Except Pending (Instr × List Byte) :=
  match decodeFrame (frameOf bytes) (1 + bytes.length) with
  | .ok i => .ok (i, bytes.drop (i.frameLen - 1))
  | .error e => .error e

/-- The bytes sent for a command (30_encoding.md R94). -/
def encode : Instr → List Byte
  | .regw reg val => [params.opRegw, reg, val]
  | .clrh => [params.opClrh]
  | .rifeq reg thr => [params.opRifeq, reg, thr]
  | .riflt reg thr => [params.opRiflt, reg, thr]
  | .mode reg val => [params.opMode, reg, val]
  | .unk op => [op]

/-- `PAD`, an unknown opcode in the leading position of the source's wire form; `NOP` is the same (30_encoding.md R95). -/
def Instr.pad : Instr := .unk 0x00

/-- `SETH`, `REGW SIG, 1` (30_encoding.md R95). -/
def Instr.seth : Instr := .regw params.regSig 0x01

/-- A row of the opcode table: it is the command of the frames whose opcode byte has `(opcode AND mask) = pattern`
(30_encoding.md R98). -/
structure OpcodeRow where
  mnemonic : String
  pattern : Byte
  mask : Byte
deriving DecidableEq, Repr

/-- spec/opcode_table.json, row by row. -/
def opcodeRows : List OpcodeRow :=
  [⟨"REGW", 0x01, 0xFF⟩, ⟨"CLRH", 0x02, 0xFF⟩, ⟨"RIFEQ", 0x03, 0xFF⟩, ⟨"RIFLT", 0x04, 0xFF⟩, ⟨"MODE", 0x05, 0xFF⟩,
   ⟨"UNK", 0x00, 0xFF⟩, ⟨"UNK", 0x06, 0xFE⟩, ⟨"UNK", 0x08, 0xF8⟩, ⟨"UNK", 0x10, 0xF0⟩, ⟨"UNK", 0x20, 0xE0⟩,
   ⟨"UNK", 0x40, 0xC0⟩, ⟨"UNK", 0x80, 0x80⟩]

/-- The opcode byte belongs to the row. -/
def OpcodeRow.covers (r : OpcodeRow) (op : Byte) : Bool := (op &&& r.mask) = r.pattern

/-- The bytes a table word stands for, in arrival order: the table numbers the opcode byte's bits 7 to 0, a later
byte's bits count on from it, and every bit from `nbits` on is 0 (log entry 17). Three bytes are the longest command. -/
def tableBytes (nbits w : Nat) : List Byte :=
  let v := w % 2 ^ nbits
  [BitVec.ofNat 8 v, BitVec.ofNat 8 (v / 2 ^ 8), BitVec.ofNat 8 (v / 2 ^ 16)]

/-- The command the decoder reads from a word of the opcode table. -/
def decodeTableWord (nbits w : Nat) : Option Instr :=
  match decode (tableBytes nbits w) with
  | .ok (i, _) => some i
  | .error _ => none

end Sys2Proof
end

