-- ==== Sys2Proof/Machine/State.lean ====
section
/-! DEFINITION. The state tuple of 10_state.md R20, field by field, with the model's own four fields, the reasons a
step can stop (none: 00_scope.md R13), and the state after reset (R39). -/

namespace Sys2Proof.Machine

/-- A rule-table entry: the stored command's opcode, register id and threshold (10_state.md R25). -/
structure Rule where
  op : Byte
  reg : Byte
  thr : Byte
deriving DecidableEq, Repr

/-- The two agents that call `Dispatch` (00_scope.md R11). The caller fixes the dispatch mode: the delivery agent
dispatches in store mode, the loop agent in eval mode (60_exceptions.md R224). -/
inductive Agent where
  | delivery
  | loop
deriving DecidableEq, Repr

/-- The seven register-mapped I/O points (10_state.md R30). -/
inductive RegId where
  | sig
  | m1pwm
  | m2pwm
  | m1dir
  | m2dir
  | ain1
  | gpio1
deriving DecidableEq, Repr

/-- The registers `WriteDigital` is issued with (43_register_bank.md R171). -/
inductive BoolReg where
  | sig
  | m1dir
  | m2dir
  | gpio1
deriving DecidableEq, Repr

/-- The registers `WritePWM` is issued with (43_register_bank.md R172). -/
inductive PwmReg where
  | m1pwm
  | m2pwm
deriving DecidableEq, Repr

/-- One HAL operation with its register and the value written or returned (43_register_bank.md R170). `ReadAnalog` is
issued with AIN1 only, `ReadDigital` and `SetDirection` with GPIO1 only (R173 to R175). -/
inductive HalOp where
  | writeDigital (id : BoolReg) (level : Bit)
  | writePWM (id : PwmReg) (duty : Byte)
  | readAnalog (sample : Byte)
  | readDigital (level : Bit)
  | setDirection (dir : Dir)
deriving DecidableEq, Repr

/-- The absorbed conditions of 60_exceptions.md R210. None stops the machine, none is state of the block. -/
inductive Absorbed where
  | frameOverflow
  | unknownOpcode
  | ruleTableFull
  | invalidRegCompare
  | modeNotConfigurable
  | writeToInput
  | invalidRegWrite
deriving DecidableEq, Repr

/-- One entry of the execution's history: a HAL operation issued (43_register_bank.md R170) or a condition absorbed
(60_exceptions.md R210). -/
inductive Happening where
  | hal (op : HalOp)
  | absorbed (c : Absorbed)
deriving DecidableEq, Repr

/-- The block has no fault: "No step faults, traps, halts or refuses" (00_scope.md R13, 60_exceptions.md R216). So the
type has no constructor. -/
inductive Fault
deriving DecidableEq, Repr

/-- The reasons for a refusal. -/
inductive Refusal where
  /-- Raised by an arm of `exec` whose instruction has no meaning yet; no arm raises it (it would be safe). -/
  | notModelled (mnemonic : String)
deriving DecidableEq, Repr

/-- The state. The first group is the block's own, the second the HAL's shadow, the third the inputs (10_state.md R20);
the last group is the model's (log entries 1 to 4). -/
structure State where
  /-- The frame under assembly (10_state.md R21). -/
  buf : Frame
  /-- Bytes of `buf` in use, counting index 0; the next byte's index (10_state.md R22). -/
  len : Nat
  /-- The rule table (10_state.md R25). -/
  rt : Vector Rule params.ruleCapacity
  /-- The number of stored rules (10_state.md R26). -/
  rtCount : Nat
  /-- The rule the control loop evaluates next, the block's program counter (10_state.md R29). -/
  loopIdx : Nat
  /-- The signal latch, the level of the signal line (10_state.md R31). -/
  sig : Bit
  /-- The duty of MOTOR1-PWM (10_state.md R32). -/
  pwm1 : Byte
  /-- The duty of MOTOR2-PWM (10_state.md R32). -/
  pwm2 : Byte
  /-- The level of MOTOR1-DIR (10_state.md R33). -/
  dir1 : Bit
  /-- The level of MOTOR2-DIR (10_state.md R33). -/
  dir2 : Bit
  /-- The output latch of GPIO-1 (10_state.md R34). -/
  gpioOut : Bit
  /-- The direction of GPIO-1 (10_state.md R34). -/
  gpioDir : Dir
  /-- The analog input's present byte, owned by the environment (10_state.md R35). -/
  ain : Byte
  /-- The level the outside puts on the GPIO-1 pin, owned by the environment (10_state.md R35). -/
  gpioPin : Bit
  /-- The model's own: which agent called `Dispatch` last, so which dispatch mode a meaning runs in (log entry 3). -/
  caller : Agent
  /-- The model's own: the next moves of the three agents, in order (log entry 1). -/
  script : List Event
  /-- The model's own: how many moves beyond the script have been drawn as free values (log entry 2). -/
  draws : Nat
  /-- The model's own: HAL operations issued and conditions absorbed since reset, the latest first (log entry 4). -/
  history : List Happening
deriving DecidableEq, Repr

/-- The state after reset (10_state.md R39). The levels and the direction of the HAL's shadow are the parameters of
00_scope.md R7 (log entry 5); the inputs have no reset value in the spec (log entry 6); the unwritten rule-table
entries are filler that no step reads (log entry 7). -/
def State.reset : State where
  buf := Vector.replicate params.maxFrameLen 0x00
  len := params.initLen
  rt := Vector.replicate params.ruleCapacity ⟨0x00, 0x00, 0x00⟩
  rtCount := 0
  loopIdx := 0
  sig := params.resetSig
  pwm1 := params.resetPwm1
  pwm2 := params.resetPwm2
  dir1 := params.resetDir1
  dir2 := params.resetDir2
  gpioOut := params.resetGpioOut
  gpioDir := params.gpio1ResetDir
  ain := 0x00
  gpioPin := false
  caller := .delivery
  script := []
  draws := 0
  history := []

end Sys2Proof.Machine
end

