-- ==== Sys2Proof/Machine/Flags.lean ====
section
/-! DEFINITION. The arithmetic of the comparison and its two predicates (42_dispatch_conditional.md R157), which decide
whether the block's one flag, the signal latch, is raised. -/

namespace Sys2Proof.Machine

/-- The difference read value − threshold, both unsigned, as an integer that cannot wrap (42_dispatch_conditional.md
R157). -/
def difference (value : Nat) (thr : Byte) : Int := (value : Int) - (thr.toNat : Int)

/-- RIFEQ matches: the comparison is valid and the difference is 0 (42_dispatch_conditional.md R153). -/
def matchesEq : Option Int → Bool
  | some d => d = 0
  | none => false

/-- RIFLT matches: the comparison is valid and the difference is below 0 (42_dispatch_conditional.md R154). -/
def matchesLt : Option Int → Bool
  | some d => d < 0
  | none => false

end Sys2Proof.Machine
end

