-- ==== Sys2Proof/Machine/Operands.lean ====
section
/-! DEFINITION. Operand decoding (30_encoding.md R85 to R89): the register id, the boolean quantisation, the direction
code, and the frame a stored rule presents. -/

namespace Sys2Proof.Machine

/-- The register a `reg` operand names, taken as a whole byte, neither masked nor range-reduced (30_encoding.md R85;
the ids of 20_memory.md R57). Ids from `NUM_REGS` on name nothing. -/
def regOf (id : Byte) : Option RegId :=
  if params.numRegs ≤ id.toNat then none
  else if id = params.regSig then some .sig
  else if id = params.regM1Pwm then some .m1pwm
  else if id = params.regM2Pwm then some .m2pwm
  else if id = params.regM1Dir then some .m1dir
  else if id = params.regM2Dir then some .m2dir
  else if id = params.regAin1 then some .ain1
  else if id = params.regGpio1 then some .gpio1
  else none

/-- `Quant(v)`: 1 if v ≠ 0x00, else 0 (30_encoding.md R87). -/
def quant (v : Byte) : Bit := v ≠ 0x00

/-- The frame `[0x00, op, reg, thr]` that a stored rule presents to `Dispatch` (30_encoding.md R96). -/
def Rule.frame (r : Rule) : Frame := frameOf [r.op, r.reg, r.thr]

end Sys2Proof.Machine
end

