-- ==== Sys2Proof/Machine/Ops.lean ====
section
/-! DEFINITION. The named operations over the block's stores: the history, the five HAL operations and their two
multiplexers (43_register_bank.md), the frame buffer (40_assembler.md), the rule table
(44_rule_table_control_loop.md), and what the block does in place of taking an exception: it absorbs
(60_exceptions.md R210). -/

namespace Sys2Proof.Machine

/-- Apply `g` to the next state of an outcome; a stop stays as it is. -/
def mapNext {α β : Type} (g : α → β) : Host.Outcome α Fault Refusal → Host.Outcome β Fault Refusal
  | .next a => .next (g a)
  | .fault r => .fault r
  | .refused r => .refused r

/-- Add one entry to the history. -/
def record (e : Happening) (s : State) : State := { s with history := e :: s.history }

/-- `absorb <condition>`: the block recovers, records nothing of its own and tells nobody (60_exceptions.md R210, R216).
There is no other exception entry, and no return from one (R222, R223). -/
def absorb (c : Absorbed) (s : State) : State := record (.absorbed c) s

/-- `WriteDigital(id, b)` (43_register_bank.md R171). -/
def writeDigital (id : BoolReg) (b : Bit) (s : State) : State :=
  let t := record (.hal (.writeDigital id b)) s
  match id with
  | .sig => { t with sig := b }
  | .m1dir => { t with dir1 := b }
  | .m2dir => { t with dir2 := b }
  | .gpio1 => { t with gpioOut := b }

/-- `WritePWM(id, v)`: the duty is the byte, verbatim (43_register_bank.md R172). -/
def writePWM (id : PwmReg) (v : Byte) (s : State) : State :=
  let t := record (.hal (.writePWM id v)) s
  match id with
  | .m1pwm => { t with pwm1 := v }
  | .m2pwm => { t with pwm2 := v }

/-- `SetDirection(GPIO1, d)`; the output latch keeps its value (43_register_bank.md R175). -/
def setDirection (d : Dir) (s : State) : State :=
  { record (.hal (.setDirection d)) s with gpioDir := d }

/-- `ReadAnalog(AIN1)`: the input's present byte (43_register_bank.md R173). A read changes no state of the block
(20_memory.md R56). -/
def readAnalog (s : State) : Byte × State := (s.ain, record (.hal (.readAnalog s.ain)) s)

/-- The live level of the GPIO-1 pad: the pin while it is an input, the read-back parameter while it is an output
(43_register_bank.md R174; log entry 12). -/
def gpioLevel (s : State) : Bit :=
  match s.gpioDir with
  | .input => s.gpioPin
  | .output => params.gpioReadback s.gpioOut s.gpioPin

/-- `ReadDigital(GPIO1)` (43_register_bank.md R174). -/
def readDigital (s : State) : Bit × State := (gpioLevel s, record (.hal (.readDigital (gpioLevel s))) s)

/-- `RegWrite(id, v)`, the write multiplexer (43_register_bank.md R176; the last two cases are log entry 11). -/
def regWrite (id v : Byte) (s : State) : State :=
  match regOf id with
  | some .sig => writeDigital .sig (quant v) s
  | some .m1pwm => writePWM .m1pwm v s
  | some .m2pwm => writePWM .m2pwm v s
  | some .m1dir => writeDigital .m1dir (quant v) s
  | some .m2dir => writeDigital .m2dir (quant v) s
  | some .ain1 => absorb .writeToInput s
  | some .gpio1 => writeDigital .gpio1 (quant v) s
  | none => absorb .invalidRegWrite s

/-- The direction change MODE asks for: only GPIO-1 is direction-configurable (41_dispatch_immediate.md R125; the last
case is log entry 11). -/
def configureDirection (id v : Byte) (s : State) : State :=
  match regOf id with
  | some .gpio1 => setDirection (params.dirDecode v) s
  | some .sig | some .m1pwm | some .m2pwm | some .m1dir | some .m2dir | some .ain1 => absorb .modeNotConfigurable s
  | none => absorb .invalidRegWrite s

/-- `Compare(reg, thr)`, the read multiplexer: the difference, or `none` for Invalid (42_dispatch_conditional.md R150,
R156; 43_register_bank.md R177). -/
def compareRegister (reg thr : Byte) (s : State) : Option Int × State :=
  match regOf reg with
  | some .ain1 => (some (difference (readAnalog s).1.toNat thr), (readAnalog s).2)
  | some .gpio1 => (some (difference (bitValue (readDigital s).1) thr), (readDigital s).2)
  | some .sig | some .m1pwm | some .m2pwm | some .m1dir | some .m2dir | none => (none, absorb .invalidRegCompare s)

/-- The evaluation of a conditional command: compare now, raise the signal on a match, never lower it
(42_dispatch_conditional.md R153 to R155). -/
def raiseIf (isMatch : Option Int → Bool) (reg thr : Byte) (s : State) : State :=
  let c := compareRegister reg thr s
  if isMatch c.1 then writeDigital .sig true c.2 else c.2

/-- `RtAppend(op, reg, thr)`: entry and count in one action, or nothing when the table is full
(44_rule_table_control_loop.md R190, R191). -/
def rtAppend (r : Rule) (s : State) : Bit × State :=
  if s.rtCount < params.ruleCapacity then
    (true, { s with rt := s.rt.setIfInBounds s.rtCount r, rtCount := s.rtCount + 1 })
  else
    match params.overflowPolicy with
    | .dropSilent => (false, absorb .ruleTableFull s)

/-- Rule-table entry `k`. (Beyond the table, which no reachable state asks for, it is filler: log entry 16.) -/
def ruleAt (s : State) (k : Nat) : Rule := s.rt[k]?.getD ⟨0x00, 0x00, 0x00⟩

/-- The append of an RX step: the byte goes to index `len`, `len` grows by 1 (40_assembler.md R111). -/
def appendByte (b : Byte) (s : State) : State := { s with buf := s.buf.setIfInBounds s.len b, len := s.len + 1 }

/-- `BufReset()` (40_assembler.md R116). -/
def bufReset (s : State) : State :=
  { s with buf := Vector.replicate params.maxFrameLen 0x00, len := params.initLen }

/-- A reset of the board: every element of the block and of the HAL's shadow at the value of 10_state.md R39, whatever
the state before (70_reset_and_hazards.md R240). The outside keeps what it owns: the inputs and its own moves
(log entry 15). -/
def boardReset (s : State) : State :=
  { State.reset with ain := s.ain, gpioPin := s.gpioPin, script := s.script, draws := s.draws }

end Sys2Proof.Machine
end

