-- ==== Sys2Proof/Machine/Conditional.lean ====
section
/-! DEFINITION. The conditional commands RIFEQ and RIFLT, each in its two dispatch modes (42_dispatch_conditional.md).
Each meaning is that of a complete frame; `Dispatch` has tested the length. -/

namespace Sys2Proof.Machine

/-- RIFEQ: stored from the RX step (42_dispatch_conditional.md R151), evaluated in the LOOP step (R153). -/
def execRifeq (reg thr : Byte) (s : State) : Host.Outcome State Fault Refusal :=
  match s.caller with
  | .delivery => .next (rtAppend ⟨params.opRifeq, reg, thr⟩ s).2
  | .loop => .next (raiseIf matchesEq reg thr s)

/-- RIFLT: stored from the RX step (42_dispatch_conditional.md R152), evaluated in the LOOP step (R154). -/
def execRiflt (reg thr : Byte) (s : State) : Host.Outcome State Fault Refusal :=
  match s.caller with
  | .delivery => .next (rtAppend ⟨params.opRiflt, reg, thr⟩ s).2
  | .loop => .next (raiseIf matchesLt reg thr s)

end Sys2Proof.Machine
end

