-- ==== Sys2Proof/Machine/Immediate.lean ====
section
/-! DEFINITION. The immediate commands REGW, CLRH, MODE and UNK (41_dispatch_immediate.md). The dispatch mode is
irrelevant to all four (R127). Each meaning is that of a complete frame; `Dispatch` has tested the length. -/

namespace Sys2Proof.Machine

/-- REGW (41_dispatch_immediate.md R123). -/
def execRegw (reg val : Byte) (s : State) : Host.Outcome State Fault Refusal := .next (regWrite reg val s)

/-- CLRH (41_dispatch_immediate.md R124). -/
def execClrh (s : State) : Host.Outcome State Fault Refusal := .next (writeDigital .sig false s)

/-- MODE (41_dispatch_immediate.md R125). -/
def execMode (reg val : Byte) (s : State) : Host.Outcome State Fault Refusal := .next (configureDirection reg val s)

/-- UNK (41_dispatch_immediate.md R126): whatever the opcode byte, it is consumed without effect. -/
def execUnk (_op : Byte) (s : State) : Host.Outcome State Fault Refusal := .next (absorb .unknownOpcode s)

end Sys2Proof.Machine
end

