-- ==== Sys2Proof/Machine/Dispatch.lean ====
section
/-! DEFINITION. One arm per command (41_dispatch_immediate.md R120, R122). -/

namespace Sys2Proof.Machine

def exec (i : Instr) (s : State) : Host.Outcome State Fault Refusal :=
  match i with
  | .regw reg val => Sys2Proof.Machine.execRegw reg val s
  | .clrh => Sys2Proof.Machine.execClrh s
  | .rifeq reg thr => Sys2Proof.Machine.execRifeq reg thr s
  | .riflt reg thr => Sys2Proof.Machine.execRiflt reg thr s
  | .mode reg val => Sys2Proof.Machine.execMode reg val s
  | .unk op => Sys2Proof.Machine.execUnk op s

end Sys2Proof.Machine
end

