-- ==== Sys2Proof/Machine/Agents.lean ====
section
/-! DEFINITION. The dispatch function, the RX step, the LOOP step, and the one move an event stands for
(41_dispatch_immediate.md R120, 40_assembler.md R110, 44_rule_table_control_loop.md R194 and R195, 00_scope.md R11). -/

namespace Sys2Proof.Machine

/-- `Dispatch(f, n, store)`, with the bit `handled`: a pending frame has no effect, a complete one runs its command in
the caller's mode and is handled (41_dispatch_immediate.md R120 to R122; in eval mode too, log entry 13). -/
def dispatch (f : Frame) (n : Nat) (caller : Agent) (s : State) : Host.Outcome (State × Bit) Fault Refusal :=
  match decodeFrame f n with
  | .error _ => .next (s, false)
  | .ok i => mapNext (fun t => (t, true)) (exec i { s with caller := caller })

/-- The end of an RX step: a handled frame resets the buffer, a pending one leaves it (40_assembler.md R114, R115). -/
def settleBuffer (r : State × Bit) : State := if r.2 then bufReset r.1 else r.1

/-- The RX step (40_assembler.md R110): append and dispatch in store mode, or abandon a full buffer (R112, log entry
13). -/
def rxStep (b : Byte) (s : State) : Host.Outcome State Fault Refusal :=
  if s.len < params.maxFrameLen then
    mapNext settleBuffer (dispatch (appendByte b s).buf (appendByte b s).len .delivery (appendByte b s))
  else
    .next (bufReset (absorb .frameOverflow s))

/-- The loop position after the evaluation of one rule (44_rule_table_control_loop.md R194). -/
def advanceLoop (s : State) : State := { s with loopIdx := s.loopIdx + 1 }

/-- The LOOP step (44_rule_table_control_loop.md R194, R195): evaluate the rule at the loop position in eval mode and
advance, or wrap at the end of the stored rules. -/
def loopStep (s : State) : Host.Outcome State Fault Refusal :=
  if s.loopIdx < s.rtCount then
    mapNext (fun r => advanceLoop r.1) (dispatch (ruleAt s s.loopIdx).frame params.ruleLen .loop s)
  else
    .next { s with loopIdx := 0 }

/-- The byte the HAL makes of a raw analog sample, under the two OPEN parameters (43_register_bank.md R173; log entry
14). -/
def reducedSample (raw : Nat) : Byte := Config.analogReduce (raw % 2 ^ Config.adcBits)

/-- The move an event stands for (00_scope.md R11, R12; 70_reset_and_hazards.md R240). -/
def runEvent (e : Event) (s : State) : Host.Outcome State Fault Refusal :=
  match e with
  | .rx b => rxStep b s
  | .loop => loopStep s
  | .ain v => .next { s with ain := v }
  | .sample raw => .next { s with ain := reducedSample raw }
  | .gpioPin g => .next { s with gpioPin := g }
  | .reset => .next (boardReset s)

/-- The next move and the state after it has been taken from the script; beyond the script the move is a free value
(20_memory.md R60; log entries 1 and 2). -/
def nextEvent (s : State) : Event × State :=
  match s.script with
  | e :: rest => (e, { s with script := rest })
  | [] => (Config.freeEvent s.draws, { s with draws := s.draws + 1 })

/-- The held bytes and the arriving byte of a table word's command: with the first as the frame under assembly and the
second as the next move, the very next step completes the command (log entry 18). -/
def loadWord (s : State) (bytes : List Byte) : State :=
  { s with
    buf := frameOf bytes.dropLast
    len := bytes.length
    script := .rx (bytes.getLastD 0x00) :: s.script }

end Sys2Proof.Machine
end

