-- ==== Sys2Proof/Machine/Step.lean ====
section
/-! DEFINITION. One step of the transition system: one move of one agent (00_scope.md R12), and the placing of an
instruction where the next step runs it. -/

namespace Sys2Proof.Machine

/-- One step: the next move, whole (20_memory.md R60 to R62). -/
def step (s : State) : Host.Outcome State Fault Refusal := runEvent (nextEvent s).1 (nextEvent s).2

/-- `s` with the command of a table word under assembly, its last byte the next to arrive, so that the next step runs
it (log entry 18). -/
def State.withFetchWord (s : State) (nbits w : Nat) : State :=
  match decodeTableWord nbits w with
  | some i => loadWord s ((tableBytes nbits w).take (i.frameLen - 1))
  | none => s

end Sys2Proof.Machine
end

