-- ==== Sys2Proof/Safety.lean ====
section
/-! DEFINITION. The terms claims use: what is observable, the shadow as a fold over the HAL trace, when a stored rule's
condition holds, the invariants of every reachable state, and runs of several steps. -/

namespace Sys2Proof.Machine

/-- The host-visible observation: the level of the signal line (00_scope.md R14, 10_state.md R37). -/
def signalLine (s : State) : Bit := s.sig

/-- The level the block drives the GPIO-1 pad to, if it drives it: only while GPIO-1 is an output (10_state.md R34). -/
def padDriven (s : State) : Option Bit :=
  match s.gpioDir with
  | .input => none
  | .output => some s.gpioOut

/-- The physical observation of 00_scope.md R14: the HAL's shadow. -/
structure Shadow where
  sig : Bit
  pwm1 : Byte
  pwm2 : Byte
  dir1 : Bit
  dir2 : Bit
  gpioOut : Bit
  gpioDir : Dir
deriving DecidableEq, Repr

/-- The shadow part of a state. -/
def State.shadow (s : State) : Shadow :=
  ⟨s.sig, s.pwm1, s.pwm2, s.dir1, s.dir2, s.gpioOut, s.gpioDir⟩

/-- The effect of one happening on the shadow: a write takes effect, a read or an absorbed condition changes nothing
(20_memory.md R56, R65). -/
def Happening.applyTo (e : Happening) (w : Shadow) : Shadow :=
  match e with
  | .hal (.writeDigital .sig b) => { w with sig := b }
  | .hal (.writeDigital .m1dir b) => { w with dir1 := b }
  | .hal (.writeDigital .m2dir b) => { w with dir2 := b }
  | .hal (.writeDigital .gpio1 b) => { w with gpioOut := b }
  | .hal (.writePWM .m1pwm v) => { w with pwm1 := v }
  | .hal (.writePWM .m2pwm v) => { w with pwm2 := v }
  | .hal (.setDirection d) => { w with gpioDir := d }
  | .hal (.readAnalog _) => w
  | .hal (.readDigital _) => w
  | .absorbed _ => w

/-- The shadow as a fold over the history since reset, latest first (43_register_bank.md R179). -/
def shadowAfter (history : List Happening) : Shadow := history.foldr Happening.applyTo State.reset.shadow

/-- The happening is a HAL write. -/
def Happening.isWrite : Happening → Bool
  | .hal (.writeDigital _ _) => true
  | .hal (.writePWM _ _) => true
  | .hal (.setDirection _) => true
  | .hal (.readAnalog _) => false
  | .hal (.readDigital _) => false
  | .absorbed _ => false

/-- The happening is a HAL read. -/
def Happening.isRead : Happening → Bool
  | .hal (.writeDigital _ _) => false
  | .hal (.writePWM _ _) => false
  | .hal (.setDirection _) => false
  | .hal (.readAnalog _) => true
  | .hal (.readDigital _) => true
  | .absorbed _ => false

/-- The value a comparison reads from a register id, if the id is valid for comparison: the analog byte, or the GPIO-1
level as 0 or 1 (42_dispatch_conditional.md R150). -/
def comparedValue (reg : Byte) (s : State) : Option Nat :=
  if reg = 0x05 then some s.ain.toNat
  else if reg = 0x06 then some (bitValue (gpioLevel s))
  else none

/-- The condition of a stored rule holds in `s`: the read value equals the threshold (RIFEQ) or is below it (RIFLT),
as unsigned numbers; on an invalid register it never holds (42_dispatch_conditional.md R156 to R159). -/
def ruleHolds (r : Rule) (s : State) : Bool :=
  match comparedValue r.reg s with
  | some v => (r.op = 0x03 ∧ v = r.thr.toNat) ∨ (r.op = 0x04 ∧ v < r.thr.toNat)
  | none => false

/-- The opcode byte opens a four-byte frame (30_encoding.md R82). -/
def isFourByteOpcode (op : Byte) : Bool := op = 0x01 ∨ op = 0x03 ∨ op = 0x04 ∨ op = 0x05

/-- The framer is idle (40_assembler.md R119 (i)). -/
def FramerIdle (s : State) : Prop := s.len = 1 ∧ s.buf = frameOf []

/-- The three shapes of the framer between steps (40_assembler.md R119). -/
def FramerShape (s : State) : Prop :=
  FramerIdle s ∨
  (∃ op, isFourByteOpcode op = true ∧ s.len = 2 ∧ s.buf = frameOf [op]) ∨
  (∃ op reg, isFourByteOpcode op = true ∧ s.len = 3 ∧ s.buf = frameOf [op, reg])

/-- The table and the loop position (44_rule_table_control_loop.md R201 (a) and (c)). -/
def TableShape (s : State) : Prop :=
  s.loopIdx ≤ s.rtCount ∧ s.rtCount ≤ 10 ∧
  ∀ k, k < s.rtCount → (ruleAt s k).op = 0x03 ∨ (ruleAt s k).op = 0x04

/-- The invariant of every state reachable from reset: the framer's shape, the table's shape, and a shadow that is the
fold of the HAL trace. -/
structure Inv (s : State) : Prop where
  framer : FramerShape s
  table : TableShape s
  shadow : s.shadow = shadowAfter s.history

/-- `n` steps of the machine, stopping at the first fault or refusal. -/
def runSteps (n : Nat) (s : State) : Host.Outcome State Fault Refusal := Host.Core.run Sys2Proof.core n s

/-- The event is neither a received byte nor a reset: a LOOP step or an input change. -/
def isLoopOrInput : Event → Bool
  | .rx _ => false
  | .loop => true
  | .ain _ => true
  | .sample _ => true
  | .gpioPin _ => true
  | .reset => false

/-- The frame under assembly is the same in both states. -/
def SameFramer (s t : State) : Prop := t.buf = s.buf ∧ t.len = s.len

/-- The rule table, every entry of it, and its count are the same in both states. -/
def SameTable (s t : State) : Prop := t.rt = s.rt ∧ t.rtCount = s.rtCount

/-- The inputs, and the model's own fields other than the history, are the same in both states. -/
def SameOutside (s t : State) : Prop :=
  t.ain = s.ain ∧ t.gpioPin = s.gpioPin ∧ t.caller = s.caller ∧ t.script = s.script ∧ t.draws = s.draws

/-- The PWM duties, the motor directions, the GPIO-1 latch and the GPIO-1 direction are the same in both states. -/
def SameOutputs (s t : State) : Prop :=
  t.pwm1 = s.pwm1 ∧ t.pwm2 = s.pwm2 ∧ t.dir1 = s.dir1 ∧ t.dir2 = s.dir2 ∧ t.gpioOut = s.gpioOut ∧ t.gpioDir = s.gpioDir

/-- The state without its history, which no step reads (60_exceptions.md R210). -/
def forgetHistory (s : State) : State := { s with history := [] }

end Sys2Proof.Machine
end

