-- ==== Sys2Proof/Certificates/Slice0/Obligations.lean ====
section
/-! DEFINITION. The statements for the provers, one Prop each. Where a statement rests on a choice of the model or on a
decision the spec marks as its own, its docstring names the log entry or the spec's decision D<n>. -/

open Sys2Proof Sys2Proof.Machine

/-! ### Encoding -/

/-- 30_encoding.md sections 1 to 3 and 6: the bytes sent for a well-formed command, whatever follows them, decode to
that command with every operand, and leave what follows. MODE's layout is the spec's own decision D5 (log entry 10). -/
def Obligations.EncodedCommandDecodesToItself : Prop :=
  ∀ (i : Instr) (rest : List Byte), i.wf = true → decode (encode i ++ rest) = .ok (i, rest)

/-- 30_encoding.md section 2: a byte string that decodes is the encoding of the command it decodes to, so no two byte
strings of one length stand for one command and no byte is dropped. MODE's layout is the spec's own decision D5 (log
entry 10). -/
def Obligations.DecodedBytesAreItsEncoding : Prop :=
  ∀ (bytes rest : List Byte) (i : Instr), decode bytes = .ok (i, rest) → i.wf = true ∧ encode i ++ rest = bytes

/-- 30_encoding.md R84, R92 (the spec's own derivations): the opcode byte alone fixes the length at which a frame is
handled, 4 for 0x01, 0x03, 0x04, 0x05 and 2 for every other byte; a longer frame is the same command. That RIFEQ and
RIFLT are handled at the same length in eval mode is the spec's own decision D13 (log entry 13). -/
def Obligations.OpcodeAloneFixesFrameLength : Prop :=
  ∀ (f : Frame) (n : Nat),
    (isFourByteOpcode (byteAt f 1) = true → ((∃ i, decodeFrame f n = .ok i) ↔ 4 ≤ n)) ∧
    (isFourByteOpcode (byteAt f 1) = false → ((∃ i, decodeFrame f n = .ok i) ↔ 2 ≤ n)) ∧
    (∀ i, decodeFrame f n = .ok i → decodeFrame f 4 = .ok i ∧ i.frameLen ≤ n)

/-- 30_encoding.md R98 (derived there): the twelve rows of the opcode table partition the opcode bytes, and the one row
that covers a frame's opcode byte names the command the decoder reads. -/
def Obligations.TableRowsPartitionTheOpcodes : Prop :=
  ∀ (f : Frame) (i : Instr), decodeFrame f 4 = .ok i →
    (opcodeRows.filter (fun r => r.covers (byteAt f 1))).map OpcodeRow.mnemonic = [i.mnemonic]

/-- 30_encoding.md sections 1, 2 and 6: words written out from the spec's encodings decode to the commands they stand
for. MODE's layout is the spec's own decision D5 (log entry 10). -/
def Obligations.SpelledOutWordsDecode : Prop :=
  decode [0x01, 0x01, 0x80] = .ok (.regw 0x01 0x80, []) ∧
  decode [0x02, 0x02] = .ok (.clrh, [0x02]) ∧
  decode [0x03, 0x05, 0x64] = .ok (.rifeq 0x05 0x64, []) ∧
  decode [0x04, 0x06, 0x01] = .ok (.riflt 0x06 0x01, []) ∧
  decode [0x05, 0x06, 0x00] = .ok (.mode 0x06 0x00, []) ∧
  decode [0x85, 0x06, 0x00] = .ok (.unk 0x85, [0x06, 0x00]) ∧
  decode [0x01, 0x07] = .error .operandsMissing ∧
  decode [] = .error .noOpcode

/-- 30_encoding.md sections 1 and 3, 20_memory.md section 4: the `reg` operand of a four-byte command is the byte at
index 2 and its other operand the byte at index 3, each taken whole, neither masked nor range-reduced; ids 0x00 to 0x06
name the seven registers, 0x86 and every id from 0x07 on name none. That MODE has this layout is the spec's own decision
D5 (log entry 10). -/
def Obligations.RegOperandIsAWholeByte : Prop :=
  (∀ (f : Frame) (n : Nat), 4 ≤ n →
    (byteAt f 1 = 0x01 → decodeFrame f n = .ok (.regw (byteAt f 2) (byteAt f 3))) ∧
    (byteAt f 1 = 0x03 → decodeFrame f n = .ok (.rifeq (byteAt f 2) (byteAt f 3))) ∧
    (byteAt f 1 = 0x04 → decodeFrame f n = .ok (.riflt (byteAt f 2) (byteAt f 3))) ∧
    (byteAt f 1 = 0x05 → decodeFrame f n = .ok (.mode (byteAt f 2) (byteAt f 3)))) ∧
  regOf 0x00 = some .sig ∧ regOf 0x01 = some .m1pwm ∧ regOf 0x02 = some .m2pwm ∧ regOf 0x03 = some .m1dir ∧
  regOf 0x04 = some .m2dir ∧ regOf 0x05 = some .ain1 ∧ regOf 0x06 = some .gpio1 ∧ regOf 0x86 = none ∧
  (∀ id : Byte, 7 ≤ id.toNat → regOf id = none)

/-- 30_encoding.md R87: `Quant(v)` is 1 exactly when v ≠ 0x00, which for an unsigned byte is v > 0. -/
def Obligations.QuantIsOneExactlyForNonzero : Prop :=
  ∀ v : Byte, (quant v = true ↔ v ≠ 0x00) ∧ (quant v = true ↔ 0 < v.toNat)

/-- 30_encoding.md R88: direction code 0x00 is Input, every other is Output. The spec's own decision D5 (log entry 10). -/
def Obligations.DirectionCodeZeroIsInput : Prop :=
  params.dirDecode 0x00 = .input ∧ ∀ v : Byte, v ≠ 0x00 → params.dirDecode v = .output

/-! ### Dispatch -/

/-- 41_dispatch_immediate.md R121: below length 2 `Dispatch` answers pending and has no effect, whatever the frame and
the mode. -/
def Obligations.ShortFrameNeverDispatches : Prop :=
  ∀ (f : Frame) (n : Nat) (c : Agent) (s : State), n < 2 → dispatch f n c s = .next (s, false)

/-- 41_dispatch_immediate.md section 2, 42_dispatch_conditional.md section 2: below length 4 a REGW, RIFEQ, RIFLT or
MODE frame is pending and has no effect, in either mode, whatever its operands. That RIFEQ and RIFLT answer pending
below length 4 in eval mode is the spec's own decision D13 (log entry 13). -/
def Obligations.FourByteCommandPendsBelowFour : Prop :=
  ∀ (f : Frame) (n : Nat) (c : Agent) (s : State),
    isFourByteOpcode (byteAt f 1) = true → n < 4 → dispatch f n c s = .next (s, false)

/-- 41_dispatch_immediate.md R120: `Dispatch` is a function of the frame's bytes 1, 2 and 3, its length, the mode and
the state; bytes 0 and 4 to 9 are never read. -/
def Obligations.DispatchReadsOnlyOpcodeAndOperands : Prop :=
  ∀ (f g : Frame) (n : Nat) (c : Agent) (s : State),
    byteAt f 1 = byteAt g 1 → byteAt f 2 = byteAt g 2 → byteAt f 3 = byteAt g 3 → dispatch f n c s = dispatch g n c s

/-- 41_dispatch_immediate.md R128 (derived there): one call of `Dispatch` issues at most one HAL write and at most one
HAL read, the read only in eval mode and before the write; or it appends one rule and issues nothing; a pending call
does nothing. The history is the model's record (log entry 4), latest first. -/
def Obligations.OneDispatchOneEffect : Prop :=
  ∀ (f : Frame) (n : Nat) (c : Agent) (s t : State) (handled : Bit), dispatch f n c s = .next (t, handled) →
    ∃ new, t.history = new ++ s.history ∧ new.countP Happening.isWrite ≤ 1 ∧ new.countP Happening.isRead ≤ 1 ∧
      (c = .delivery → new.countP Happening.isRead = 0) ∧
      (∀ x y, new = [x, y] → x.isWrite = true ∧ y.isRead = true) ∧ new.length ≤ 2 ∧
      (t.rtCount ≠ s.rtCount → t.rtCount = s.rtCount + 1 ∧ new = []) ∧
      (handled = false → t = s)

/-! ### The immediate commands -/

/-- 41_dispatch_immediate.md R124: CLRH drives the signal low whatever the state, in both modes and at every length from
2 on, issues the write even when nothing changes, touches nothing else; from idle the one byte 0x02 does it in its own
RX step; `REGW SIG, 0` has the same effect; a rule whose condition still holds raises the signal again at its next
evaluation. -/
def Obligations.ClrhDrivesSignalLow : Prop :=
  (∀ s : State, exec .clrh s =
    .next { s with sig := false, history := .hal (.writeDigital .sig false) :: s.history }) ∧
  (∀ s : State, exec (.regw 0x00 0x00) s = exec .clrh s) ∧
  (∀ (f : Frame) (n : Nat) (c : Agent) (s : State), 2 ≤ n → byteAt f 1 = 0x02 → dispatch f n c s =
    .next ({ s with caller := c, sig := false, history := .hal (.writeDigital .sig false) :: s.history }, true)) ∧
  (∀ s : State, s.len = 1 → rxStep 0x02 s =
    .next { s with buf := frameOf [], len := 1, caller := .delivery, sig := false,
                   history := .hal (.writeDigital .sig false) :: s.history }) ∧
  (∀ s : State, TableShape s → s.loopIdx < s.rtCount → ruleHolds (ruleAt s s.loopIdx) s = true →
    ∃ t u, exec .clrh s = .next t ∧ t.sig = false ∧ loopStep t = .next u ∧ u.sig = true)

/-- 41_dispatch_immediate.md R126: an opcode byte outside 0x01 to 0x05 is consumed alone, handled at every length from 2
on and in both modes, with no effect but the absorbed condition and, from idle, the buffer reset of its own RX step. -/
def Obligations.UnknownOpcodeIsConsumedAlone : Prop :=
  (∀ (op : Byte) (s : State), exec (.unk op) s =
    .next { s with history := .absorbed .unknownOpcode :: s.history }) ∧
  (∀ (op : Byte), op ≠ 0x01 → op ≠ 0x02 → op ≠ 0x03 → op ≠ 0x04 → op ≠ 0x05 →
    (∀ (f : Frame) (n : Nat) (c : Agent) (s : State), 2 ≤ n → byteAt f 1 = op → dispatch f n c s =
      .next ({ s with caller := c, history := .absorbed .unknownOpcode :: s.history }, true)) ∧
    (∀ s : State, s.len = 1 → rxStep op s =
      .next { s with buf := frameOf [], len := 1, caller := .delivery,
                     history := .absorbed .unknownOpcode :: s.history }))

/-- 41_dispatch_immediate.md section 2, 43_register_bank.md section 2: REGW to a boolean register writes 1 for a nonzero
operand and 0 for zero, by one HAL write; for GPIO-1 it is the output latch, whatever the direction (D8, log entry 12). -/
def Obligations.RegwQuantisesIntoBooleanRegisters : Prop :=
  ∀ (val : Byte) (s : State),
    exec (.regw 0x00 val) s = .next { s with
      sig := decide (val ≠ 0x00), history := .hal (.writeDigital .sig (decide (val ≠ 0x00))) :: s.history } ∧
    exec (.regw 0x03 val) s = .next { s with
      dir1 := decide (val ≠ 0x00), history := .hal (.writeDigital .m1dir (decide (val ≠ 0x00))) :: s.history } ∧
    exec (.regw 0x04 val) s = .next { s with
      dir2 := decide (val ≠ 0x00), history := .hal (.writeDigital .m2dir (decide (val ≠ 0x00))) :: s.history } ∧
    exec (.regw 0x06 val) s = .next { s with
      gpioOut := decide (val ≠ 0x00), history := .hal (.writeDigital .gpio1 (decide (val ≠ 0x00))) :: s.history }

/-- 41_dispatch_immediate.md section 2, 43_register_bank.md section 2: REGW to a PWM register writes the operand byte
verbatim, by one HAL write. -/
def Obligations.RegwWritesPwmVerbatim : Prop :=
  ∀ (val : Byte) (s : State),
    exec (.regw 0x01 val) s = .next { s with
      pwm1 := val, history := .hal (.writePWM .m1pwm val) :: s.history } ∧
    exec (.regw 0x02 val) s = .next { s with
      pwm2 := val, history := .hal (.writePWM .m2pwm val) :: s.history }

/-- REGW to the analog input or to an unassigned id is consumed with no write. The spec's own decisions D6 and D7 (log
entry 11). -/
def Obligations.RegwElsewhereWritesNothing : Prop :=
  ∀ (val : Byte) (s : State),
    exec (.regw 0x05 val) s = .next { s with history := .absorbed .writeToInput :: s.history } ∧
    ∀ reg : Byte, 7 ≤ reg.toNat →
      exec (.regw reg val) s = .next { s with history := .absorbed .invalidRegWrite :: s.history }

/-- 41_dispatch_immediate.md section 4: MODE to GPIO-1 sets its direction to the one the parameter `DIR_DECODE` names,
and leaves the output latch (decisions D5 and D29, log entries 10 and 12). -/
def Obligations.ModeSetsGpioDirection : Prop :=
  ∀ (val : Byte) (s : State), exec (.mode 0x06 val) s = .next { s with
    gpioDir := params.dirDecode val, history := .hal (.setDirection (params.dirDecode val)) :: s.history }

/-- 41_dispatch_immediate.md section 4: MODE to any other register configures nothing: the registers 0x00 to 0x05 are not
direction-configurable, and ids from 0x07 on are unassigned (for these, decision D7, log entry 11). -/
def Obligations.ModeElsewhereConfiguresNothing : Prop :=
  ∀ (reg val : Byte) (s : State),
    (reg.toNat ≤ 5 → exec (.mode reg val) s =
      .next { s with history := .absorbed .modeNotConfigurable :: s.history }) ∧
    (7 ≤ reg.toNat → exec (.mode reg val) s =
      .next { s with history := .absorbed .invalidRegWrite :: s.history })

/-- The frame of REGW, CLRH, MODE and UNK (41_dispatch_immediate.md R131 among others): the buffer, the rule table, the
loop position, the inputs and the model's own fields other than the history (log entry 4) never change; REGW changes at
most the register it names, CLRH at most the signal, MODE at most the direction of GPIO-1 and only when it names it, UNK
nothing. That MODE leaves the GPIO-1 latch is the spec's own decision D29 (log entry 12); that REGW to 0x05, and REGW or
MODE to an id from 0x07 on, change nothing is its decisions D6 and D7 (log entry 11). -/
def Obligations.ImmediateCommandsFrame : Prop :=
  ∀ s t : State,
    (∀ reg val : Byte, exec (.regw reg val) s = .next t →
      SameFramer s t ∧ SameTable s t ∧ t.loopIdx = s.loopIdx ∧ SameOutside s t ∧ t.gpioDir = s.gpioDir ∧
      (reg ≠ 0x00 → t.sig = s.sig) ∧ (reg ≠ 0x01 → t.pwm1 = s.pwm1) ∧ (reg ≠ 0x02 → t.pwm2 = s.pwm2) ∧
      (reg ≠ 0x03 → t.dir1 = s.dir1) ∧ (reg ≠ 0x04 → t.dir2 = s.dir2) ∧ (reg ≠ 0x06 → t.gpioOut = s.gpioOut)) ∧
    (exec .clrh s = .next t →
      SameFramer s t ∧ SameTable s t ∧ t.loopIdx = s.loopIdx ∧ SameOutside s t ∧ SameOutputs s t) ∧
    (∀ reg val : Byte, exec (.mode reg val) s = .next t →
      SameFramer s t ∧ SameTable s t ∧ t.loopIdx = s.loopIdx ∧ SameOutside s t ∧ t.sig = s.sig ∧
      t.pwm1 = s.pwm1 ∧ t.pwm2 = s.pwm2 ∧ t.dir1 = s.dir1 ∧ t.dir2 = s.dir2 ∧ t.gpioOut = s.gpioOut ∧
      (reg ≠ 0x06 → t.gpioDir = s.gpioDir)) ∧
    (∀ op : Byte, exec (.unk op) s = .next t →
      SameFramer s t ∧ SameTable s t ∧ t.loopIdx = s.loopIdx ∧ SameOutside s t ∧ t.sig = s.sig ∧ SameOutputs s t)

/-- 43_register_bank.md section 1, 70_reset_and_hazards.md section 3 (H-8): a level written to GPIO-1 is latched, does
not drive the pad while GPIO-1 is an input, and drives it as soon as MODE makes it an output. Decisions D8 and D29 (log
entry 12). -/
def Obligations.LatchedLevelShowsWhenOutputEnabled : Prop :=
  ∀ (val code : Byte) (s : State), params.dirDecode code = .output →
    ∃ t u, exec (.regw 0x06 val) s = .next t ∧ exec (.mode 0x06 code) t = .next u ∧
      (s.gpioDir = .input → padDriven t = none) ∧ padDriven u = some (decide (val ≠ 0x00))

/-! ### The conditional commands -/

/-- 42_dispatch_conditional.md section 2: in store mode RIFEQ and RIFLT append their frame's three bytes at index
`rt_count`, whatever the register id and the threshold, or store nothing when the table is full; they evaluate nothing.
The stored form, the silent drop and the absence of another check are decisions D12, D16 and D26 (log entry 22). -/
def Obligations.ConditionalCommandsAreStored : Prop :=
  ∀ (reg thr : Byte) (s : State), s.caller = .delivery →
    (s.rtCount < 10 →
      exec (.rifeq reg thr) s = .next { s with
        rt := s.rt.setIfInBounds s.rtCount ⟨0x03, reg, thr⟩, rtCount := s.rtCount + 1 } ∧
      exec (.riflt reg thr) s = .next { s with
        rt := s.rt.setIfInBounds s.rtCount ⟨0x04, reg, thr⟩, rtCount := s.rtCount + 1 }) ∧
    (10 ≤ s.rtCount →
      exec (.rifeq reg thr) s = .next { s with history := .absorbed .ruleTableFull :: s.history } ∧
      exec (.riflt reg thr) s = .next { s with history := .absorbed .ruleTableFull :: s.history })

/-- The frame of RIFEQ and RIFLT in store mode: the history (log entry 4) apart, nothing changes but entry `rt_count` of
the table and the count, and with a full table not even these. The silent drop is decision D16 (log entry 22). -/
def Obligations.ConditionalStoreFrame : Prop :=
  ∀ (reg thr : Byte) (s t : State), s.caller = .delivery →
    (exec (.rifeq reg thr) s = .next t ∨ exec (.riflt reg thr) s = .next t) →
      SameFramer s t ∧ t.loopIdx = s.loopIdx ∧ SameOutside s t ∧ t.sig = s.sig ∧ SameOutputs s t ∧
      (∀ k : Nat, k ≠ s.rtCount → t.rt[k]? = s.rt[k]?) ∧
      (10 ≤ s.rtCount → SameTable s t)

/-- 44_rule_table_control_loop.md section 1: an append below capacity stores the rule at index `rt_count`, leaves every
other entry, and counts it; at capacity it answers 0 and stores nothing. The drop is decision D16 (log entry 22). -/
def Obligations.AppendStoresAtCountOrDrops : Prop :=
  ∀ (r : Rule) (s : State),
    (s.rtCount < 10 →
      (rtAppend r s).1 = true ∧ (rtAppend r s).2.rtCount = s.rtCount + 1 ∧
      ruleAt (rtAppend r s).2 s.rtCount = r ∧
      ∀ k : Nat, k ≠ s.rtCount → ruleAt (rtAppend r s).2 k = ruleAt s k) ∧
    (10 ≤ s.rtCount →
      rtAppend r s = (false, { s with history := .absorbed .ruleTableFull :: s.history }))

/-- 42_dispatch_conditional.md R150: `Compare` reads the analog byte for id 0x05 or the GPIO-1 level for id 0x06, live,
and answers the integer difference with the threshold; for every other id it issues no HAL operation and answers
Invalid. -/
def Obligations.CompareSubtractsTheLiveValue : Prop :=
  ∀ (thr : Byte) (s : State),
    compareRegister 0x05 thr s = (some ((s.ain.toNat : Int) - (thr.toNat : Int)),
      { s with history := .hal (.readAnalog s.ain) :: s.history }) ∧
    compareRegister 0x06 thr s = (some ((if gpioLevel s then 1 else 0 : Int) - (thr.toNat : Int)),
      { s with history := .hal (.readDigital (gpioLevel s)) :: s.history }) ∧
    ∀ reg : Byte, reg ≠ 0x05 → reg ≠ 0x06 →
      compareRegister reg thr s = (none, { s with history := .absorbed .invalidRegCompare :: s.history })

/-- 42_dispatch_conditional.md R159 (derived there), R157: on the analog input RIFEQ matches exactly when the sample
equals the threshold and RIFLT exactly when it is below it, as unsigned numbers; a match issues the read and then the
raise, no match issues the read alone and changes nothing. The unsigned comparison is decision D19 (log entry 23). -/
def Obligations.AnalogRulesCompareUnsigned : Prop :=
  ∀ (thr : Byte) (s : State), s.caller = .loop →
    exec (.rifeq 0x05 thr) s = .next (if s.ain = thr then
        { s with sig := true, history := .hal (.writeDigital .sig true) :: .hal (.readAnalog s.ain) :: s.history }
      else { s with history := .hal (.readAnalog s.ain) :: s.history }) ∧
    exec (.riflt 0x05 thr) s = .next (if s.ain.toNat < thr.toNat then
        { s with sig := true, history := .hal (.writeDigital .sig true) :: .hal (.readAnalog s.ain) :: s.history }
      else { s with history := .hal (.readAnalog s.ain) :: s.history })

/-- 42_dispatch_conditional.md R158 (derived there): the match table of GPIO-1. A match issues the read and then the
raise, no match the read alone. The unsigned comparison is decision D19 (log entry 23). -/
def Obligations.GpioRulesFollowTheMatchTable : Prop :=
  ∀ (thr : Byte) (s : State), s.caller = .loop →
    exec (.rifeq 0x06 thr) s = .next
      (if (thr = 0x00 ∧ gpioLevel s = false) ∨ (thr = 0x01 ∧ gpioLevel s = true) then
        { s with sig := true,
                 history := .hal (.writeDigital .sig true) :: .hal (.readDigital (gpioLevel s)) :: s.history }
      else { s with history := .hal (.readDigital (gpioLevel s)) :: s.history }) ∧
    exec (.riflt 0x06 thr) s = .next
      (if (thr = 0x01 ∧ gpioLevel s = false) ∨ 2 ≤ thr.toNat then
        { s with sig := true,
                 history := .hal (.writeDigital .sig true) :: .hal (.readDigital (gpioLevel s)) :: s.history }
      else { s with history := .hal (.readDigital (gpioLevel s)) :: s.history })

/-- 43_register_bank.md R174: a read of GPIO-1 returns the pin while it is an input, and while it is an output the level
the block itself drives: the spec's own decision D9 (log entry 12). -/
def Obligations.GpioReadsPinOrItsOwnOutput : Prop :=
  ∀ s : State, (s.gpioDir = .input → gpioLevel s = s.gpioPin) ∧ (s.gpioDir = .output → gpioLevel s = s.gpioOut)

/-- 42_dispatch_conditional.md R156: a rule on a register that is invalid for comparison never matches, whatever its
threshold, and issues neither a HAL read nor a HAL write. -/
def Obligations.InvalidRegisterNeverMatches : Prop :=
  ∀ (reg thr : Byte) (s : State), s.caller = .loop → reg ≠ 0x05 → reg ≠ 0x06 →
    exec (.rifeq reg thr) s = .next { s with history := .absorbed .invalidRegCompare :: s.history } ∧
    exec (.riflt reg thr) s = .next { s with history := .absorbed .invalidRegCompare :: s.history }

/-- The frame of RIFEQ and RIFLT in eval mode: the history (log entry 4) apart, nothing changes but the signal, which
changes only to high and only when the command's own condition holds. The unsigned comparison is decision D19 (log entry
23). What GPIO-1 reads while it is an output is decision D9 (log entry 12). -/
def Obligations.ConditionalEvalFrame : Prop :=
  ∀ (op reg thr : Byte) (s t : State), s.caller = .loop →
    (op = 0x03 ∧ exec (.rifeq reg thr) s = .next t) ∨ (op = 0x04 ∧ exec (.riflt reg thr) s = .next t) →
      SameFramer s t ∧ SameTable s t ∧ t.loopIdx = s.loopIdx ∧ SameOutside s t ∧ SameOutputs s t ∧
      (t.sig ≠ s.sig → t.sig = true ∧ ruleHolds ⟨op, reg, thr⟩ s = true)

/-- 42_dispatch_conditional.md R155: in neither mode does a conditional command drive the signal low or issue a write of
0 to it, and one that is stored or whose condition is false issues no write and leaves the signal exactly as it was. -/
def Obligations.ConditionalsNeverLowerSignal : Prop :=
  ∀ (op reg thr : Byte) (s t : State),
    (op = 0x03 ∧ exec (.rifeq reg thr) s = .next t) ∨ (op = 0x04 ∧ exec (.riflt reg thr) s = .next t) →
      (s.sig = true → t.sig = true) ∧
      ∃ new, t.history = new ++ s.history ∧ .hal (.writeDigital .sig false) ∉ new ∧
        (s.caller = .delivery ∨ ruleHolds ⟨op, reg, thr⟩ s = false →
          t.sig = s.sig ∧ ∀ e ∈ new, e.isWrite = false)

/-! ### The framer -/

/-- 40_assembler.md R116: `BufReset()` zeroes all ten bytes and sets the length to 1, the state the buffer has after a
reset of the block, and touches nothing else. -/
def Obligations.BufResetTouchesOnlyTheBuffer : Prop :=
  ∀ s : State, (bufReset s).len = 1 ∧ (∀ k : Nat, byteAt (bufReset s).buf k = 0x00) ∧
    bufReset s = { s with buf := State.reset.buf, len := State.reset.len }

/-- 40_assembler.md R114 and R115: a step that delivers a byte appends it at index `len`; when the frame then decodes to
a command, the step is that command in store mode and then the buffer reset; when it is pending, the append is all. -/
def Obligations.ReceivedByteRunsCompletedCommand : Prop :=
  ∀ (s s' : State) (b : Byte), nextEvent s = (.rx b, s') → s'.len < 10 →
    let a : State := { s' with buf := s'.buf.setIfInBounds s'.len b, len := s'.len + 1 }
    (∀ i, decodeFrame a.buf a.len = .ok i → step s = mapNext bufReset (exec i { a with caller := .delivery })) ∧
    (∀ e, decodeFrame a.buf a.len = .error e → step s = .next a)

/-- A byte that finds the buffer full is lost with the frame. That it is not kept as a new frame's first byte is the
spec's own decision D10 (log entry 13). -/
def Obligations.FullBufferIsAbandoned : Prop :=
  ∀ (s s' : State) (b : Byte), nextEvent s = (.rx b, s') → 10 ≤ s'.len →
    step s = .next { s' with
      buf := frameOf [], len := 1, history := .absorbed .frameOverflow :: s'.history }

/-- 40_assembler.md R118 (derived there): a well-formed command sent byte by byte from idle takes one step for each
byte, its effect is that of `exec` in store mode, and the framer is idle again. MODE's layout is the spec's own decision
D5 (log entry 10). -/
def Obligations.CommandSentFromIdleRuns : Prop :=
  ∀ (i : Instr) (s : State) (rest : List Event), i.wf = true → FramerIdle s →
    s.script = (encode i).map Event.rx ++ rest →
    runSteps (encode i).length s = exec i { s with caller := .delivery, script := rest }

/-- 20_memory.md R53 (derived there): from every shape the framer can have, two bytes of value 0x00 leave it idle. -/
def Obligations.TwoZeroBytesRegainFraming : Prop :=
  ∀ (s : State) (rest : List Event), FramerShape s → s.script = .rx 0x00 :: .rx 0x00 :: rest →
    ∃ t, runSteps 2 s = .next t ∧ FramerIdle t ∧ t.script = rest ∧ t.loopIdx = s.loopIdx

/-- 10_state.md R35, 41_dispatch_immediate.md R131: an RX step never reads the inputs: with other inputs it does the
same, and leaves them as they are. -/
def Obligations.RxStepNeverReadsInputs : Prop :=
  ∀ (b v : Byte) (g : Bit) (s : State),
    rxStep b { s with ain := v, gpioPin := g } = mapNext (fun t => { t with ain := v, gpioPin := g }) (rxStep b s)

/-! ### The control loop -/

/-- 44_rule_table_control_loop.md R194 and R195: a LOOP step runs the command of the stored rule at the loop position in
eval mode and advances by 1, or wraps to 0 at the end of the stored rules. The loop position is the spec's own decision
D14 (log entry 8). The stored form is decision D12 (log entry 22). -/
def Obligations.LoopStepRunsTheStoredRule : Prop :=
  ∀ s s' : State, nextEvent s = (.loop, s') →
    (s'.loopIdx < s'.rtCount → ∀ (r : Rule) (i : Instr), ruleAt s' s'.loopIdx = r →
      decodeFrame (frameOf [r.op, r.reg, r.thr]) 4 = .ok i →
      step s = mapNext (fun t => { t with loopIdx := t.loopIdx + 1 }) (exec i { s' with caller := .loop })) ∧
    (s'.rtCount ≤ s'.loopIdx → step s = .next { s' with loopIdx := 0 })

/-- 44_rule_table_control_loop.md section 2 (R196), 42_dispatch_conditional.md section 4: at every evaluation at which a
stored rule's condition holds, whatever happened before, the signal is high after the LOOP step; at one at which it does
not hold, the signal is as before. The loop position and the unsigned comparison are decisions D14 and D19 (log entries
8 and 23). What GPIO-1 reads while it is an output is decision D9 (log entry 12). -/
def Obligations.EvaluationRaisesSignalExactlyOnMatch : Prop :=
  ∀ s s' : State, nextEvent s = (.loop, s') → TableShape s' → s'.loopIdx < s'.rtCount →
    ∃ t, step s = .next t ∧ t.loopIdx = s'.loopIdx + 1 ∧
      t.sig = (s'.sig || ruleHolds (ruleAt s' s'.loopIdx) s') ∧
      SameFramer s' t ∧ SameTable s' t ∧ SameOutputs s' t

/-- 44_rule_table_control_loop.md section 2 (R197): over a whole pass with no RX step in it, in which the environment
gives the inputs any values before each evaluation, the signal at the end is the signal at the start OR some rule
matched at its evaluation; the loop is back at index 0 and the table is as it was. The loop position, the atomic steps
and the free inputs are decisions D14, D15 and D28 (log entries 8, 9 and 24). What GPIO-1 reads while it is an output is
decision D9 (log entry 12). -/
def Obligations.PassRaisesSignalByOr : Prop :=
  ∀ (s : State) (samples : List (Byte × Bit)) (rest : List Event),
    TableShape s → s.loopIdx = 0 → samples.length = s.rtCount →
    s.script = samples.flatMap (fun p => [Event.ain p.1, Event.gpioPin p.2, Event.loop]) ++ Event.loop :: rest →
    ∃ t, runSteps (3 * s.rtCount + 1) s = .next t ∧ t.loopIdx = 0 ∧ t.script = rest ∧ SameTable s t ∧
      SameFramer s t ∧ SameOutputs s t ∧
      t.sig = (s.sig || (samples.zipIdx.any fun p =>
        ruleHolds (ruleAt s p.2) { s with ain := p.1.1, gpioPin := p.1.2 }))

/-- 44_rule_table_control_loop.md R198: over any run of LOOP steps with no RX step between them, whatever the inputs do,
a signal that is high stays high. From a table of stored rules (R201). -/
def Obligations.LoopNeverLowersSignal : Prop :=
  ∀ (es rest : List Event) (s t : State), TableShape s → (∀ e ∈ es, isLoopOrInput e = true) →
    s.script = es ++ rest → runSteps es.length s = .next t → s.sig = true → t.sig = true

/-- 43_register_bank.md R178 (derived there): a LOOP step issues reads and raises of the signal only, and changes no
other output; an RX step issues no read. -/
def Obligations.EachAgentIssuesItsOwnOperations : Prop :=
  (∀ s t : State, TableShape s → loopStep s = .next t →
    ∃ new, t.history = new ++ s.history ∧ SameOutputs s t ∧
      ∀ op, .hal op ∈ new →
        op = .writeDigital .sig true ∨ (∃ v, op = .readAnalog v) ∨ (∃ g, op = .readDigital g)) ∧
  (∀ (b : Byte) (s t : State), rxStep b s = .next t →
    ∃ new, t.history = new ++ s.history ∧ ∀ e ∈ new, e.isRead = false)

/-- 44_rule_table_control_loop.md R200: no move but an RX step and a reset writes the buffer, its length, the table or
its count, and no move but a LOOP step and a reset writes the loop position; the loop does not read the buffer, and the
framer does not read the loop position. The loop position is decision D14 (log entry 8). A reset as a step is decision
D27 (log entry 15). -/
def Obligations.EachAgentKeepsToItsOwnStores : Prop :=
  (∀ (e : Event) (s t : State), runEvent e s = .next t → e ≠ .reset →
    ((∀ b, e ≠ .rx b) → SameFramer s t ∧ SameTable s t) ∧ (e ≠ .loop → t.loopIdx = s.loopIdx)) ∧
  (∀ (s : State) (f : Frame) (n : Nat),
    loopStep { s with buf := f, len := n } = mapNext (fun t => { t with buf := f, len := n }) (loopStep s)) ∧
  (∀ (b : Byte) (s : State) (k : Nat),
    rxStep b { s with loopIdx := k } = mapNext (fun t => { t with loopIdx := k }) (rxStep b s))

/-! ### The whole machine -/

/-- 00_scope.md R13: every step is total: in every state an RX step with any byte and a LOOP step have exactly one next
state, and so has every step; no move faults or refuses. -/
def Obligations.EveryStepYieldsANextState : Prop :=
  (∀ s : State, ∃! t, step s = .next t) ∧
  (∀ (b : Byte) (s : State), ∃! t, rxStep b s = .next t) ∧
  (∀ s : State, ∃! t, loopStep s = .next t) ∧
  ∀ (e : Event) (s : State), ∃ t, runEvent e s = .next t

/-- The next move is the script's first, and it is taken from the script. The model's own convention (log entry 1). -/
def Obligations.ScriptGivesTheNextMove : Prop :=
  ∀ (s : State) (e : Event) (rest : List Event), s.script = e :: rest →
    nextEvent s = (e, { s with script := rest }) ∧ step s = runEvent e { s with script := rest }

/-- 10_state.md R20 and R35, 20_memory.md section 5: an input change is a step that changes that input and nothing else
of the block, and no other move changes the inputs. The value a raw sample gives is free (D18, log entry 14); that a
board reset keeps the inputs is the model's choice (log entry 15). That the inputs may take any value between any two
steps is decision D28 (log entry 24). -/
def Obligations.OnlyTheEnvironmentChangesInputs : Prop :=
  (∀ (v : Byte) (s : State), runEvent (.ain v) s = .next { s with ain := v }) ∧
  (∀ (g : Bit) (s : State), runEvent (.gpioPin g) s = .next { s with gpioPin := g }) ∧
  (∀ (raw : Nat) (s : State), ∃ v : Byte, runEvent (.sample raw) s = .next { s with ain := v }) ∧
  (∀ (e : Event) (s t : State), runEvent e s = .next t →
    ((∀ v, e ≠ .ain v) → (∀ raw, e ≠ .sample raw) → t.ain = s.ain) ∧
    ((∀ g, e ≠ .gpioPin g) → t.gpioPin = s.gpioPin))

/-- 10_state.md R27: a stored rule is immutable and never removed, and the count never decreases and grows by at most
1 in a step; only a reset of the block empties the table. -/
def Obligations.StoredRulesAreImmutable : Prop :=
  ∀ (s s' t : State) (e : Event), nextEvent s = (e, s') → step s = .next t →
    (e ≠ .reset →
      (t.rtCount = s.rtCount ∨ t.rtCount = s.rtCount + 1) ∧ ∀ k : Nat, k < s.rtCount → ruleAt t k = ruleAt s k) ∧
    (e = .reset → t.rtCount = 0)

/-- 10_state.md R31: the signal is raised by a matching rule in a LOOP step and by a REGW to id 0x00 with a nonzero
operand, lowered by CLRH and by a REGW to id 0x00 with operand 0x00, and changed by no other move (a reset apart). From
a table of stored rules (44_rule_table_control_loop.md R201). The loop position is decision D14 (log entry 8), a reset
as a step decision D27 (log entry 15). What GPIO-1 reads while it is an output is decision D9 (log entry 12). -/
def Obligations.SignalChangesOnlyByNamedMoves : Prop :=
  ∀ (s s' t : State) (e : Event), nextEvent s = (e, s') → TableShape s' → step s = .next t → t.sig ≠ s.sig →
    e = .reset ∨
    (e = .loop ∧ s'.loopIdx < s'.rtCount ∧ ruleHolds (ruleAt s' s'.loopIdx) s' = true ∧ t.sig = true) ∨
    ∃ b, e = .rx b ∧ s'.len < 10 ∧
      ((decodeFrame (s'.buf.setIfInBounds s'.len b) (s'.len + 1) = .ok .clrh ∧ t.sig = false) ∨
       ∃ v, decodeFrame (s'.buf.setIfInBounds s'.len b) (s'.len + 1) = .ok (.regw 0x00 v) ∧
         t.sig = decide (v ≠ 0x00))

/-- 41_dispatch_immediate.md R130: after the RX step that completes a REGW to a PWM register with operand V the duty is
V exactly, and only another REGW to the same id, or a reset, changes it. From a table of stored rules
(44_rule_table_control_loop.md R201). -/
def Obligations.PwmDutyIsTheLastRegw : Prop :=
  (∀ (s s' : State) (b v : Byte), nextEvent s = (.rx b, s') → s'.len < 10 →
    (decodeFrame (s'.buf.setIfInBounds s'.len b) (s'.len + 1) = .ok (.regw 0x01 v) →
      ∃ t, step s = .next t ∧ t.pwm1 = v) ∧
    (decodeFrame (s'.buf.setIfInBounds s'.len b) (s'.len + 1) = .ok (.regw 0x02 v) →
      ∃ t, step s = .next t ∧ t.pwm2 = v)) ∧
  (∀ (s s' t : State) (e : Event), nextEvent s = (e, s') → TableShape s' → step s = .next t → e ≠ .reset →
    (t.pwm1 ≠ s.pwm1 → ∃ b v, e = .rx b ∧ s'.len < 10 ∧
      decodeFrame (s'.buf.setIfInBounds s'.len b) (s'.len + 1) = .ok (.regw 0x01 v) ∧ t.pwm1 = v) ∧
    (t.pwm2 ≠ s.pwm2 → ∃ b v, e = .rx b ∧ s'.len < 10 ∧
      decodeFrame (s'.buf.setIfInBounds s'.len b) (s'.len + 1) = .ok (.regw 0x02 v) ∧ t.pwm2 = v))

/-- 60_exceptions.md section 1 (R210): no step depends on the recorded history: two states that differ only in it step
to states that differ only in it. The history is the model's own (log entry 4). -/
def Obligations.HistoryNeverInfluencesAStep : Prop :=
  ∀ (s : State) (h : List Happening),
    mapNext forgetHistory (step { s with history := h }) = mapNext forgetHistory (step s)

/-- 43_register_bank.md R179, 20_memory.md R65: the shadow is the fold of the HAL trace since reset, and every step
keeps it so. The history is the model's own (log entry 4). The shadow is decision D2 (log entry 24), a reset as a step
decision D27 (log entry 15). -/
def Obligations.StepKeepsShadowAsFoldOfTrace : Prop :=
  ∀ s t : State, s.shadow = shadowAfter s.history → step s = .next t → t.shadow = shadowAfter t.history

/-- 40_assembler.md R119 and 44_rule_table_control_loop.md R201 (both derived there), 43_register_bank.md R179: every
step, of any agent, keeps the framer in one of its three shapes, the table and the loop position in bounds with only
RIFEQ and RIFLT rules stored, and the shadow equal to the fold of the HAL trace. The loop position is decision D14 (log
entry 8), a reset as a step decision D27 (log entry 15), the recorded trace the model's own (log entry 4). -/
def Obligations.EveryMoveKeepsTheShapes : Prop :=
  ∀ s t : State, Inv s → step s = .next t → Inv t

/-- The state after reset has the shapes that every step keeps. 10_state.md section 7, 40_assembler.md section 3,
44_rule_table_control_loop.md section 2. That the loop position is 0, so within the table, is the spec's own decision
D14 (log entry 8); the levels and the direction the shadow starts from are its decisions D3 and D4 (log entry 5); the
empty trace is the model's own (log entry 4). -/
def Obligations.ResetStateHasTheShapes : Prop :=
  Inv State.reset

/-- 10_state.md R39: what reset leaves. The buffer's values are the source's; the loop position, the levels and the
direction are the spec's own decisions D3, D4 and D14 (log entries 5 and 8). -/
def Obligations.ResetLeavesTheStatedValues : Prop :=
  (∀ k : Nat, byteAt State.reset.buf k = 0x00) ∧ State.reset.len = 1 ∧ State.reset.rtCount = 0 ∧
  State.reset.loopIdx = 0 ∧ State.reset.sig = false ∧ State.reset.pwm1 = 0x00 ∧ State.reset.pwm2 = 0x00 ∧
  State.reset.dir1 = false ∧ State.reset.dir2 = false ∧ State.reset.gpioOut = false ∧ State.reset.gpioDir = .input

/-- 70_reset_and_hazards.md R240: a reset of the board, at any time, puts every element of the block and of the shadow
at its reset value whatever the state before. As a step that may occur at any time it is the spec's decision D27; that
the inputs and the outside's moves stay, and that the history restarts, is the model's choice (log entry 15). So is the
filler of the rule-table entries, which the spec leaves unspecified after reset (D23, log entry 7). The levels, the
direction and the loop position are decisions D3, D4 and D14 (log entries 5 and 8). -/
def Obligations.BoardResetRestoresTheResetState : Prop :=
  ∀ s s' : State, nextEvent s = (.reset, s') →
    step s = .next { State.reset with ain := s'.ain, gpioPin := s'.gpioPin, script := s'.script, draws := s'.draws }

/-- A command placed by `withFetchWord` is the one the decoder reads from the table word, and the very next step runs
exactly it. The model's own convention (log entry 18). How a table word numbers its bits is the model's own too (log
entry 17). -/
def Obligations.TableWordRunsInTheNextStep : Prop :=
  ∀ (s : State) (nbits w : Nat) (i : Instr), decodeTableWord nbits w = some i →
    step (s.withFetchWord nbits w) = exec i { s with buf := frameOf [], len := 1, caller := .delivery }

/-- 41_dispatch_immediate.md section 6, 10_state.md section 5: after the RX step that completes a REGW to a boolean
register the register holds the quantised operand, after one that completes a MODE to GPIO-1 its direction is the one the
operand codes, and no other move changes a motor direction, the GPIO-1 latch or the GPIO-1 direction (a reset apart); for
the signal see SignalChangesOnlyByNamedMoves. From a table of stored rules (44_rule_table_control_loop.md R201). The
latch and the direction rest on decisions D5, D8 and D29 (log entries 10 and 12), the loop position on D14 (log entry 8),
a reset as a step on D27 (log entry 15). -/
def Obligations.OutputsChangeOnlyByTheirCommand : Prop :=
  (∀ (s s' : State) (b v : Byte), nextEvent s = (.rx b, s') → s'.len < 10 →
    let completes (i : Instr) : Prop := decodeFrame (s'.buf.setIfInBounds s'.len b) (s'.len + 1) = .ok i
    (completes (.regw 0x00 v) → ∃ t, step s = .next t ∧ t.sig = decide (v ≠ 0x00)) ∧
    (completes (.regw 0x03 v) → ∃ t, step s = .next t ∧ t.dir1 = decide (v ≠ 0x00)) ∧
    (completes (.regw 0x04 v) → ∃ t, step s = .next t ∧ t.dir2 = decide (v ≠ 0x00)) ∧
    (completes (.regw 0x06 v) → ∃ t, step s = .next t ∧ t.gpioOut = decide (v ≠ 0x00)) ∧
    (completes (.mode 0x06 v) → ∃ t, step s = .next t ∧ t.gpioDir = params.dirDecode v)) ∧
  (∀ (s s' t : State) (e : Event), nextEvent s = (e, s') → TableShape s' → step s = .next t → e ≠ .reset →
    let completed (i : Instr) : Prop :=
      ∃ b, e = .rx b ∧ s'.len < 10 ∧ decodeFrame (s'.buf.setIfInBounds s'.len b) (s'.len + 1) = .ok i
    (t.dir1 ≠ s.dir1 → ∃ v, completed (.regw 0x03 v) ∧ t.dir1 = decide (v ≠ 0x00)) ∧
    (t.dir2 ≠ s.dir2 → ∃ v, completed (.regw 0x04 v) ∧ t.dir2 = decide (v ≠ 0x00)) ∧
    (t.gpioOut ≠ s.gpioOut → ∃ v, completed (.regw 0x06 v) ∧ t.gpioOut = decide (v ≠ 0x00)) ∧
    (t.gpioDir ≠ s.gpioDir → ∃ v, completed (.mode 0x06 v) ∧ t.gpioDir = params.dirDecode v))
end

