-- ==== Sys2Proof/Laws/State.lean ====
section
/-! SUPPORT. One lemma per field per named update of the state, so that no later proof unfolds a record update. -/

namespace Sys2Proof.Machine

/-! ### record -/

@[simp] theorem record_buf (e : Happening) (s : State) : (record e s).buf = s.buf := rfl
@[simp] theorem record_len (e : Happening) (s : State) : (record e s).len = s.len := rfl
@[simp] theorem record_rt (e : Happening) (s : State) : (record e s).rt = s.rt := rfl
@[simp] theorem record_rtCount (e : Happening) (s : State) : (record e s).rtCount = s.rtCount := rfl
@[simp] theorem record_loopIdx (e : Happening) (s : State) : (record e s).loopIdx = s.loopIdx := rfl
@[simp] theorem record_sig (e : Happening) (s : State) : (record e s).sig = s.sig := rfl
@[simp] theorem record_pwm1 (e : Happening) (s : State) : (record e s).pwm1 = s.pwm1 := rfl
@[simp] theorem record_pwm2 (e : Happening) (s : State) : (record e s).pwm2 = s.pwm2 := rfl
@[simp] theorem record_dir1 (e : Happening) (s : State) : (record e s).dir1 = s.dir1 := rfl
@[simp] theorem record_dir2 (e : Happening) (s : State) : (record e s).dir2 = s.dir2 := rfl
@[simp] theorem record_gpioOut (e : Happening) (s : State) : (record e s).gpioOut = s.gpioOut := rfl
@[simp] theorem record_gpioDir (e : Happening) (s : State) : (record e s).gpioDir = s.gpioDir := rfl
@[simp] theorem record_ain (e : Happening) (s : State) : (record e s).ain = s.ain := rfl
@[simp] theorem record_gpioPin (e : Happening) (s : State) : (record e s).gpioPin = s.gpioPin := rfl
@[simp] theorem record_caller (e : Happening) (s : State) : (record e s).caller = s.caller := rfl
@[simp] theorem record_script (e : Happening) (s : State) : (record e s).script = s.script := rfl
@[simp] theorem record_draws (e : Happening) (s : State) : (record e s).draws = s.draws := rfl
@[simp] theorem record_history (e : Happening) (s : State) : (record e s).history = e :: s.history := rfl

/-! ### absorb -/

@[simp] theorem absorb_buf (c : Absorbed) (s : State) : (absorb c s).buf = s.buf := rfl
@[simp] theorem absorb_len (c : Absorbed) (s : State) : (absorb c s).len = s.len := rfl
@[simp] theorem absorb_rt (c : Absorbed) (s : State) : (absorb c s).rt = s.rt := rfl
@[simp] theorem absorb_rtCount (c : Absorbed) (s : State) : (absorb c s).rtCount = s.rtCount := rfl
@[simp] theorem absorb_loopIdx (c : Absorbed) (s : State) : (absorb c s).loopIdx = s.loopIdx := rfl
@[simp] theorem absorb_sig (c : Absorbed) (s : State) : (absorb c s).sig = s.sig := rfl
@[simp] theorem absorb_pwm1 (c : Absorbed) (s : State) : (absorb c s).pwm1 = s.pwm1 := rfl
@[simp] theorem absorb_pwm2 (c : Absorbed) (s : State) : (absorb c s).pwm2 = s.pwm2 := rfl
@[simp] theorem absorb_dir1 (c : Absorbed) (s : State) : (absorb c s).dir1 = s.dir1 := rfl
@[simp] theorem absorb_dir2 (c : Absorbed) (s : State) : (absorb c s).dir2 = s.dir2 := rfl
@[simp] theorem absorb_gpioOut (c : Absorbed) (s : State) : (absorb c s).gpioOut = s.gpioOut := rfl
@[simp] theorem absorb_gpioDir (c : Absorbed) (s : State) : (absorb c s).gpioDir = s.gpioDir := rfl
@[simp] theorem absorb_ain (c : Absorbed) (s : State) : (absorb c s).ain = s.ain := rfl
@[simp] theorem absorb_gpioPin (c : Absorbed) (s : State) : (absorb c s).gpioPin = s.gpioPin := rfl
@[simp] theorem absorb_caller (c : Absorbed) (s : State) : (absorb c s).caller = s.caller := rfl
@[simp] theorem absorb_script (c : Absorbed) (s : State) : (absorb c s).script = s.script := rfl
@[simp] theorem absorb_draws (c : Absorbed) (s : State) : (absorb c s).draws = s.draws := rfl
@[simp] theorem absorb_history (c : Absorbed) (s : State) : (absorb c s).history = .absorbed c :: s.history := rfl

/-! ### writeDigital -/

@[simp] theorem writeDigital_buf (id : BoolReg) (b : Bit) (s : State) : (writeDigital id b s).buf = s.buf := by cases id <;> rfl
@[simp] theorem writeDigital_len (id : BoolReg) (b : Bit) (s : State) : (writeDigital id b s).len = s.len := by cases id <;> rfl
@[simp] theorem writeDigital_rt (id : BoolReg) (b : Bit) (s : State) : (writeDigital id b s).rt = s.rt := by cases id <;> rfl
@[simp] theorem writeDigital_rtCount (id : BoolReg) (b : Bit) (s : State) : (writeDigital id b s).rtCount = s.rtCount := by cases id <;> rfl
@[simp] theorem writeDigital_loopIdx (id : BoolReg) (b : Bit) (s : State) : (writeDigital id b s).loopIdx = s.loopIdx := by cases id <;> rfl
@[simp] theorem writeDigital_pwm1 (id : BoolReg) (b : Bit) (s : State) : (writeDigital id b s).pwm1 = s.pwm1 := by cases id <;> rfl
@[simp] theorem writeDigital_pwm2 (id : BoolReg) (b : Bit) (s : State) : (writeDigital id b s).pwm2 = s.pwm2 := by cases id <;> rfl
@[simp] theorem writeDigital_gpioDir (id : BoolReg) (b : Bit) (s : State) : (writeDigital id b s).gpioDir = s.gpioDir := by cases id <;> rfl
@[simp] theorem writeDigital_ain (id : BoolReg) (b : Bit) (s : State) : (writeDigital id b s).ain = s.ain := by cases id <;> rfl
@[simp] theorem writeDigital_gpioPin (id : BoolReg) (b : Bit) (s : State) : (writeDigital id b s).gpioPin = s.gpioPin := by cases id <;> rfl
@[simp] theorem writeDigital_caller (id : BoolReg) (b : Bit) (s : State) : (writeDigital id b s).caller = s.caller := by cases id <;> rfl
@[simp] theorem writeDigital_script (id : BoolReg) (b : Bit) (s : State) : (writeDigital id b s).script = s.script := by cases id <;> rfl
@[simp] theorem writeDigital_draws (id : BoolReg) (b : Bit) (s : State) : (writeDigital id b s).draws = s.draws := by cases id <;> rfl
@[simp] theorem writeDigital_history (id : BoolReg) (b : Bit) (s : State) : (writeDigital id b s).history = .hal (.writeDigital id b) :: s.history := by cases id <;> rfl
@[simp] theorem writeDigital_sig_sig (b : Bit) (s : State) : (writeDigital .sig b s).sig = b := rfl
@[simp] theorem writeDigital_sig_dir1 (b : Bit) (s : State) : (writeDigital .sig b s).dir1 = s.dir1 := rfl
@[simp] theorem writeDigital_sig_dir2 (b : Bit) (s : State) : (writeDigital .sig b s).dir2 = s.dir2 := rfl
@[simp] theorem writeDigital_sig_gpioOut (b : Bit) (s : State) : (writeDigital .sig b s).gpioOut = s.gpioOut := rfl
@[simp] theorem writeDigital_m1dir_sig (b : Bit) (s : State) : (writeDigital .m1dir b s).sig = s.sig := rfl
@[simp] theorem writeDigital_m1dir_dir1 (b : Bit) (s : State) : (writeDigital .m1dir b s).dir1 = b := rfl
@[simp] theorem writeDigital_m1dir_dir2 (b : Bit) (s : State) : (writeDigital .m1dir b s).dir2 = s.dir2 := rfl
@[simp] theorem writeDigital_m1dir_gpioOut (b : Bit) (s : State) : (writeDigital .m1dir b s).gpioOut = s.gpioOut := rfl
@[simp] theorem writeDigital_m2dir_sig (b : Bit) (s : State) : (writeDigital .m2dir b s).sig = s.sig := rfl
@[simp] theorem writeDigital_m2dir_dir1 (b : Bit) (s : State) : (writeDigital .m2dir b s).dir1 = s.dir1 := rfl
@[simp] theorem writeDigital_m2dir_dir2 (b : Bit) (s : State) : (writeDigital .m2dir b s).dir2 = b := rfl
@[simp] theorem writeDigital_m2dir_gpioOut (b : Bit) (s : State) : (writeDigital .m2dir b s).gpioOut = s.gpioOut := rfl
@[simp] theorem writeDigital_gpio1_sig (b : Bit) (s : State) : (writeDigital .gpio1 b s).sig = s.sig := rfl
@[simp] theorem writeDigital_gpio1_dir1 (b : Bit) (s : State) : (writeDigital .gpio1 b s).dir1 = s.dir1 := rfl
@[simp] theorem writeDigital_gpio1_dir2 (b : Bit) (s : State) : (writeDigital .gpio1 b s).dir2 = s.dir2 := rfl
@[simp] theorem writeDigital_gpio1_gpioOut (b : Bit) (s : State) : (writeDigital .gpio1 b s).gpioOut = b := rfl

/-! ### writePWM -/

@[simp] theorem writePWM_buf (id : PwmReg) (v : Byte) (s : State) : (writePWM id v s).buf = s.buf := by cases id <;> rfl
@[simp] theorem writePWM_len (id : PwmReg) (v : Byte) (s : State) : (writePWM id v s).len = s.len := by cases id <;> rfl
@[simp] theorem writePWM_rt (id : PwmReg) (v : Byte) (s : State) : (writePWM id v s).rt = s.rt := by cases id <;> rfl
@[simp] theorem writePWM_rtCount (id : PwmReg) (v : Byte) (s : State) : (writePWM id v s).rtCount = s.rtCount := by cases id <;> rfl
@[simp] theorem writePWM_loopIdx (id : PwmReg) (v : Byte) (s : State) : (writePWM id v s).loopIdx = s.loopIdx := by cases id <;> rfl
@[simp] theorem writePWM_sig (id : PwmReg) (v : Byte) (s : State) : (writePWM id v s).sig = s.sig := by cases id <;> rfl
@[simp] theorem writePWM_dir1 (id : PwmReg) (v : Byte) (s : State) : (writePWM id v s).dir1 = s.dir1 := by cases id <;> rfl
@[simp] theorem writePWM_dir2 (id : PwmReg) (v : Byte) (s : State) : (writePWM id v s).dir2 = s.dir2 := by cases id <;> rfl
@[simp] theorem writePWM_gpioOut (id : PwmReg) (v : Byte) (s : State) : (writePWM id v s).gpioOut = s.gpioOut := by cases id <;> rfl
@[simp] theorem writePWM_gpioDir (id : PwmReg) (v : Byte) (s : State) : (writePWM id v s).gpioDir = s.gpioDir := by cases id <;> rfl
@[simp] theorem writePWM_ain (id : PwmReg) (v : Byte) (s : State) : (writePWM id v s).ain = s.ain := by cases id <;> rfl
@[simp] theorem writePWM_gpioPin (id : PwmReg) (v : Byte) (s : State) : (writePWM id v s).gpioPin = s.gpioPin := by cases id <;> rfl
@[simp] theorem writePWM_caller (id : PwmReg) (v : Byte) (s : State) : (writePWM id v s).caller = s.caller := by cases id <;> rfl
@[simp] theorem writePWM_script (id : PwmReg) (v : Byte) (s : State) : (writePWM id v s).script = s.script := by cases id <;> rfl
@[simp] theorem writePWM_draws (id : PwmReg) (v : Byte) (s : State) : (writePWM id v s).draws = s.draws := by cases id <;> rfl
@[simp] theorem writePWM_history (id : PwmReg) (v : Byte) (s : State) : (writePWM id v s).history = .hal (.writePWM id v) :: s.history := by cases id <;> rfl
@[simp] theorem writePWM_m1pwm_pwm1 (v : Byte) (s : State) : (writePWM .m1pwm v s).pwm1 = v := rfl
@[simp] theorem writePWM_m1pwm_pwm2 (v : Byte) (s : State) : (writePWM .m1pwm v s).pwm2 = s.pwm2 := rfl
@[simp] theorem writePWM_m2pwm_pwm1 (v : Byte) (s : State) : (writePWM .m2pwm v s).pwm1 = s.pwm1 := rfl
@[simp] theorem writePWM_m2pwm_pwm2 (v : Byte) (s : State) : (writePWM .m2pwm v s).pwm2 = v := rfl

/-! ### setDirection -/

@[simp] theorem setDirection_buf (d : Dir) (s : State) : (setDirection d s).buf = s.buf := rfl
@[simp] theorem setDirection_len (d : Dir) (s : State) : (setDirection d s).len = s.len := rfl
@[simp] theorem setDirection_rt (d : Dir) (s : State) : (setDirection d s).rt = s.rt := rfl
@[simp] theorem setDirection_rtCount (d : Dir) (s : State) : (setDirection d s).rtCount = s.rtCount := rfl
@[simp] theorem setDirection_loopIdx (d : Dir) (s : State) : (setDirection d s).loopIdx = s.loopIdx := rfl
@[simp] theorem setDirection_sig (d : Dir) (s : State) : (setDirection d s).sig = s.sig := rfl
@[simp] theorem setDirection_pwm1 (d : Dir) (s : State) : (setDirection d s).pwm1 = s.pwm1 := rfl
@[simp] theorem setDirection_pwm2 (d : Dir) (s : State) : (setDirection d s).pwm2 = s.pwm2 := rfl
@[simp] theorem setDirection_dir1 (d : Dir) (s : State) : (setDirection d s).dir1 = s.dir1 := rfl
@[simp] theorem setDirection_dir2 (d : Dir) (s : State) : (setDirection d s).dir2 = s.dir2 := rfl
@[simp] theorem setDirection_gpioOut (d : Dir) (s : State) : (setDirection d s).gpioOut = s.gpioOut := rfl
@[simp] theorem setDirection_gpioDir (d : Dir) (s : State) : (setDirection d s).gpioDir = d := rfl
@[simp] theorem setDirection_ain (d : Dir) (s : State) : (setDirection d s).ain = s.ain := rfl
@[simp] theorem setDirection_gpioPin (d : Dir) (s : State) : (setDirection d s).gpioPin = s.gpioPin := rfl
@[simp] theorem setDirection_caller (d : Dir) (s : State) : (setDirection d s).caller = s.caller := rfl
@[simp] theorem setDirection_script (d : Dir) (s : State) : (setDirection d s).script = s.script := rfl
@[simp] theorem setDirection_draws (d : Dir) (s : State) : (setDirection d s).draws = s.draws := rfl
@[simp] theorem setDirection_history (d : Dir) (s : State) : (setDirection d s).history = .hal (.setDirection d) :: s.history := rfl

/-! ### appendByte -/

@[simp] theorem appendByte_buf (b : Byte) (s : State) : (appendByte b s).buf = s.buf.setIfInBounds s.len b := rfl
@[simp] theorem appendByte_len (b : Byte) (s : State) : (appendByte b s).len = s.len + 1 := rfl
@[simp] theorem appendByte_rt (b : Byte) (s : State) : (appendByte b s).rt = s.rt := rfl
@[simp] theorem appendByte_rtCount (b : Byte) (s : State) : (appendByte b s).rtCount = s.rtCount := rfl
@[simp] theorem appendByte_loopIdx (b : Byte) (s : State) : (appendByte b s).loopIdx = s.loopIdx := rfl
@[simp] theorem appendByte_sig (b : Byte) (s : State) : (appendByte b s).sig = s.sig := rfl
@[simp] theorem appendByte_pwm1 (b : Byte) (s : State) : (appendByte b s).pwm1 = s.pwm1 := rfl
@[simp] theorem appendByte_pwm2 (b : Byte) (s : State) : (appendByte b s).pwm2 = s.pwm2 := rfl
@[simp] theorem appendByte_dir1 (b : Byte) (s : State) : (appendByte b s).dir1 = s.dir1 := rfl
@[simp] theorem appendByte_dir2 (b : Byte) (s : State) : (appendByte b s).dir2 = s.dir2 := rfl
@[simp] theorem appendByte_gpioOut (b : Byte) (s : State) : (appendByte b s).gpioOut = s.gpioOut := rfl
@[simp] theorem appendByte_gpioDir (b : Byte) (s : State) : (appendByte b s).gpioDir = s.gpioDir := rfl
@[simp] theorem appendByte_ain (b : Byte) (s : State) : (appendByte b s).ain = s.ain := rfl
@[simp] theorem appendByte_gpioPin (b : Byte) (s : State) : (appendByte b s).gpioPin = s.gpioPin := rfl
@[simp] theorem appendByte_caller (b : Byte) (s : State) : (appendByte b s).caller = s.caller := rfl
@[simp] theorem appendByte_script (b : Byte) (s : State) : (appendByte b s).script = s.script := rfl
@[simp] theorem appendByte_draws (b : Byte) (s : State) : (appendByte b s).draws = s.draws := rfl
@[simp] theorem appendByte_history (b : Byte) (s : State) : (appendByte b s).history = s.history := rfl

/-! ### bufReset -/

@[simp] theorem bufReset_len (s : State) : (bufReset s).len = params.initLen := rfl
@[simp] theorem bufReset_rt (s : State) : (bufReset s).rt = s.rt := rfl
@[simp] theorem bufReset_rtCount (s : State) : (bufReset s).rtCount = s.rtCount := rfl
@[simp] theorem bufReset_loopIdx (s : State) : (bufReset s).loopIdx = s.loopIdx := rfl
@[simp] theorem bufReset_sig (s : State) : (bufReset s).sig = s.sig := rfl
@[simp] theorem bufReset_pwm1 (s : State) : (bufReset s).pwm1 = s.pwm1 := rfl
@[simp] theorem bufReset_pwm2 (s : State) : (bufReset s).pwm2 = s.pwm2 := rfl
@[simp] theorem bufReset_dir1 (s : State) : (bufReset s).dir1 = s.dir1 := rfl
@[simp] theorem bufReset_dir2 (s : State) : (bufReset s).dir2 = s.dir2 := rfl
@[simp] theorem bufReset_gpioOut (s : State) : (bufReset s).gpioOut = s.gpioOut := rfl
@[simp] theorem bufReset_gpioDir (s : State) : (bufReset s).gpioDir = s.gpioDir := rfl
@[simp] theorem bufReset_ain (s : State) : (bufReset s).ain = s.ain := rfl
@[simp] theorem bufReset_gpioPin (s : State) : (bufReset s).gpioPin = s.gpioPin := rfl
@[simp] theorem bufReset_caller (s : State) : (bufReset s).caller = s.caller := rfl
@[simp] theorem bufReset_script (s : State) : (bufReset s).script = s.script := rfl
@[simp] theorem bufReset_draws (s : State) : (bufReset s).draws = s.draws := rfl
@[simp] theorem bufReset_history (s : State) : (bufReset s).history = s.history := rfl
@[simp] theorem bufReset_buf (s : State) : (bufReset s).buf = Vector.replicate params.maxFrameLen 0x00 := rfl

/-! ### advanceLoop -/

@[simp] theorem advanceLoop_buf (s : State) : (advanceLoop s).buf = s.buf := rfl
@[simp] theorem advanceLoop_len (s : State) : (advanceLoop s).len = s.len := rfl
@[simp] theorem advanceLoop_rt (s : State) : (advanceLoop s).rt = s.rt := rfl
@[simp] theorem advanceLoop_rtCount (s : State) : (advanceLoop s).rtCount = s.rtCount := rfl
@[simp] theorem advanceLoop_loopIdx (s : State) : (advanceLoop s).loopIdx = s.loopIdx + 1 := rfl
@[simp] theorem advanceLoop_sig (s : State) : (advanceLoop s).sig = s.sig := rfl
@[simp] theorem advanceLoop_pwm1 (s : State) : (advanceLoop s).pwm1 = s.pwm1 := rfl
@[simp] theorem advanceLoop_pwm2 (s : State) : (advanceLoop s).pwm2 = s.pwm2 := rfl
@[simp] theorem advanceLoop_dir1 (s : State) : (advanceLoop s).dir1 = s.dir1 := rfl
@[simp] theorem advanceLoop_dir2 (s : State) : (advanceLoop s).dir2 = s.dir2 := rfl
@[simp] theorem advanceLoop_gpioOut (s : State) : (advanceLoop s).gpioOut = s.gpioOut := rfl
@[simp] theorem advanceLoop_gpioDir (s : State) : (advanceLoop s).gpioDir = s.gpioDir := rfl
@[simp] theorem advanceLoop_ain (s : State) : (advanceLoop s).ain = s.ain := rfl
@[simp] theorem advanceLoop_gpioPin (s : State) : (advanceLoop s).gpioPin = s.gpioPin := rfl
@[simp] theorem advanceLoop_caller (s : State) : (advanceLoop s).caller = s.caller := rfl
@[simp] theorem advanceLoop_script (s : State) : (advanceLoop s).script = s.script := rfl
@[simp] theorem advanceLoop_draws (s : State) : (advanceLoop s).draws = s.draws := rfl
@[simp] theorem advanceLoop_history (s : State) : (advanceLoop s).history = s.history := rfl

/-! ### regWrite -/

@[simp] theorem regWrite_buf (id v : Byte) (s : State) : (regWrite id v s).buf = s.buf := by unfold regWrite; split <;> simp
@[simp] theorem regWrite_len (id v : Byte) (s : State) : (regWrite id v s).len = s.len := by unfold regWrite; split <;> simp
@[simp] theorem regWrite_rt (id v : Byte) (s : State) : (regWrite id v s).rt = s.rt := by unfold regWrite; split <;> simp
@[simp] theorem regWrite_rtCount (id v : Byte) (s : State) : (regWrite id v s).rtCount = s.rtCount := by unfold regWrite; split <;> simp
@[simp] theorem regWrite_loopIdx (id v : Byte) (s : State) : (regWrite id v s).loopIdx = s.loopIdx := by unfold regWrite; split <;> simp
@[simp] theorem regWrite_gpioDir (id v : Byte) (s : State) : (regWrite id v s).gpioDir = s.gpioDir := by unfold regWrite; split <;> simp
@[simp] theorem regWrite_ain (id v : Byte) (s : State) : (regWrite id v s).ain = s.ain := by unfold regWrite; split <;> simp
@[simp] theorem regWrite_gpioPin (id v : Byte) (s : State) : (regWrite id v s).gpioPin = s.gpioPin := by unfold regWrite; split <;> simp
@[simp] theorem regWrite_caller (id v : Byte) (s : State) : (regWrite id v s).caller = s.caller := by unfold regWrite; split <;> simp
@[simp] theorem regWrite_script (id v : Byte) (s : State) : (regWrite id v s).script = s.script := by unfold regWrite; split <;> simp
@[simp] theorem regWrite_draws (id v : Byte) (s : State) : (regWrite id v s).draws = s.draws := by unfold regWrite; split <;> simp

/-! ### configureDirection -/

@[simp] theorem configureDirection_buf (id v : Byte) (s : State) : (configureDirection id v s).buf = s.buf := by unfold configureDirection; split <;> simp
@[simp] theorem configureDirection_len (id v : Byte) (s : State) : (configureDirection id v s).len = s.len := by unfold configureDirection; split <;> simp
@[simp] theorem configureDirection_rt (id v : Byte) (s : State) : (configureDirection id v s).rt = s.rt := by unfold configureDirection; split <;> simp
@[simp] theorem configureDirection_rtCount (id v : Byte) (s : State) : (configureDirection id v s).rtCount = s.rtCount := by unfold configureDirection; split <;> simp
@[simp] theorem configureDirection_loopIdx (id v : Byte) (s : State) : (configureDirection id v s).loopIdx = s.loopIdx := by unfold configureDirection; split <;> simp
@[simp] theorem configureDirection_sig (id v : Byte) (s : State) : (configureDirection id v s).sig = s.sig := by unfold configureDirection; split <;> simp
@[simp] theorem configureDirection_pwm1 (id v : Byte) (s : State) : (configureDirection id v s).pwm1 = s.pwm1 := by unfold configureDirection; split <;> simp
@[simp] theorem configureDirection_pwm2 (id v : Byte) (s : State) : (configureDirection id v s).pwm2 = s.pwm2 := by unfold configureDirection; split <;> simp
@[simp] theorem configureDirection_dir1 (id v : Byte) (s : State) : (configureDirection id v s).dir1 = s.dir1 := by unfold configureDirection; split <;> simp
@[simp] theorem configureDirection_dir2 (id v : Byte) (s : State) : (configureDirection id v s).dir2 = s.dir2 := by unfold configureDirection; split <;> simp
@[simp] theorem configureDirection_gpioOut (id v : Byte) (s : State) : (configureDirection id v s).gpioOut = s.gpioOut := by unfold configureDirection; split <;> simp
@[simp] theorem configureDirection_ain (id v : Byte) (s : State) : (configureDirection id v s).ain = s.ain := by unfold configureDirection; split <;> simp
@[simp] theorem configureDirection_gpioPin (id v : Byte) (s : State) : (configureDirection id v s).gpioPin = s.gpioPin := by unfold configureDirection; split <;> simp
@[simp] theorem configureDirection_caller (id v : Byte) (s : State) : (configureDirection id v s).caller = s.caller := by unfold configureDirection; split <;> simp
@[simp] theorem configureDirection_script (id v : Byte) (s : State) : (configureDirection id v s).script = s.script := by unfold configureDirection; split <;> simp
@[simp] theorem configureDirection_draws (id v : Byte) (s : State) : (configureDirection id v s).draws = s.draws := by unfold configureDirection; split <;> simp

end Sys2Proof.Machine
end

