-- ==== Sys2Proof/Laws/Decode.lean ====
section
/-! SUPPORT. Frames and the decoder: what a byte of a frame is, and what the decoder answers for each opcode. -/

namespace Sys2Proof

theorem maxFrameLen_eq : params.maxFrameLen = 10 := rfl

theorem byteAt_frameOf (bs : List Byte) (i : Nat) (h : i < 10) :
    byteAt (frameOf bs) i = (0x00 :: bs).getD i 0x00 := by
  have h' : i < params.maxFrameLen := h
  simp [byteAt, frameOf, h']

@[simp] theorem byteAt_frameOf_opcode (bs : List Byte) : byteAt (frameOf bs) 1 = bs.getD 0 0x00 := by
  rw [byteAt_frameOf _ _ (by decide)]; rfl

@[simp] theorem byteAt_frameOf_reg (bs : List Byte) : byteAt (frameOf bs) 2 = bs.getD 1 0x00 := by
  rw [byteAt_frameOf _ _ (by decide)]; rfl

@[simp] theorem byteAt_frameOf_val (bs : List Byte) : byteAt (frameOf bs) 3 = bs.getD 2 0x00 := by
  rw [byteAt_frameOf _ _ (by decide)]; rfl

/-- A frame of received bytes, one byte longer. -/
theorem frameOf_append (bs : List Byte) (b : Byte) :
    (frameOf bs).setIfInBounds (bs.length + 1) b = frameOf (bs ++ [b]) := by
  apply Vector.ext
  intro i hi
  have hi' : i < 10 := hi
  rw [Vector.getElem_setIfInBounds]
  simp only [frameOf, Vector.getElem_ofFn]
  by_cases hk : bs.length + 1 = i
  · subst hk; simp
  · rw [if_neg hk]
    cases i with
    | zero => rfl
    | succ j =>
      simp only [List.getD_cons_succ]
      by_cases hj : j < bs.length
      · rw [List.getD_append _ _ _ _ hj]
      · have : bs.length < j := by omega
        have hle : (bs ++ [b]).length ≤ j := by simp; omega
        rw [List.getD_eq_default _ _ (by omega), List.getD_eq_default _ _ hle]

theorem frameOf_nil : Vector.replicate params.maxFrameLen (0x00 : Byte) = frameOf [] := by decide

theorem decodeFrame_short {f : Frame} {n : Nat} (h : n < 2) : decodeFrame f n = .error .noOpcode := by
  simp [decodeFrame, h]

theorem decodeFrame_regw {f : Frame} {n : Nat} (hop : byteAt f 1 = 0x01) (h : 4 ≤ n) :
    decodeFrame f n = .ok (.regw (byteAt f 2) (byteAt f 3)) := by
  have h2 : ¬ n < 2 := by omega
  have h4 : ¬ n < 4 := by omega
  simp [decodeFrame, hop, h2, h4, params, whenComplete]

theorem decodeFrame_clrh {f : Frame} {n : Nat} (hop : byteAt f 1 = 0x02) (h : 2 ≤ n) :
    decodeFrame f n = .ok .clrh := by
  have h2 : ¬ n < 2 := by omega
  simp [decodeFrame, hop, h2, params, whenComplete]

theorem decodeFrame_rifeq {f : Frame} {n : Nat} (hop : byteAt f 1 = 0x03) (h : 4 ≤ n) :
    decodeFrame f n = .ok (.rifeq (byteAt f 2) (byteAt f 3)) := by
  have h2 : ¬ n < 2 := by omega
  have h4 : ¬ n < 4 := by omega
  simp [decodeFrame, hop, h2, h4, params, whenComplete]

theorem decodeFrame_riflt {f : Frame} {n : Nat} (hop : byteAt f 1 = 0x04) (h : 4 ≤ n) :
    decodeFrame f n = .ok (.riflt (byteAt f 2) (byteAt f 3)) := by
  have h2 : ¬ n < 2 := by omega
  have h4 : ¬ n < 4 := by omega
  simp [decodeFrame, hop, h2, h4, params, whenComplete]

theorem decodeFrame_mode {f : Frame} {n : Nat} (hop : byteAt f 1 = 0x05) (h : 4 ≤ n) :
    decodeFrame f n = .ok (.mode (byteAt f 2) (byteAt f 3)) := by
  have h2 : ¬ n < 2 := by omega
  have h4 : ¬ n < 4 := by omega
  simp [decodeFrame, hop, h2, h4, params, whenComplete]

theorem decodeFrame_unk {f : Frame} {n : Nat} (hop : isDefinedOpcode (byteAt f 1) = false) (h : 2 ≤ n) :
    decodeFrame f n = .ok (.unk (byteAt f 1)) := by
  have h2 : ¬ n < 2 := by omega
  simp only [isDefinedOpcode, decide_eq_false_iff_not, not_or] at hop
  have hn : ¬ n < params.minLenUnk := h2
  simp [decodeFrame, whenComplete, h2, hn, hop.1, hop.2.1, hop.2.2.1, hop.2.2.2.1, hop.2.2.2.2]

/-- A frame of length 2 or 3 that opens a four-byte command is pending. -/
theorem decodeFrame_pending {f : Frame} {n : Nat} (hop : Machine.isFourByteOpcode (byteAt f 1) = true) (h : n < 4) :
    ∃ e, decodeFrame f n = .error e := by
  by_cases h2 : n < 2
  · exact ⟨_, decodeFrame_short h2⟩
  · refine ⟨.operandsMissing, ?_⟩
    simp only [Machine.isFourByteOpcode, decide_eq_true_eq] at hop
    obtain hop | hop | hop | hop := hop <;> simp [decodeFrame, hop, h2, h, params, whenComplete]

/-- Every opcode byte opens a two-byte command or a four-byte command. -/
theorem opcode_cases (op : Byte) :
    op = 0x02 ∨ isDefinedOpcode op = false ∨ Machine.isFourByteOpcode op = true := by
  revert op; decide

/-- What a decoded frame is: the command its opcode byte names, at no less than its minimum length. -/
theorem decodeFrame_cases {f : Frame} {n : Nat} {i : Instr} (h : decodeFrame f n = .ok i) :
    (byteAt f 1 = 0x01 ∧ 4 ≤ n ∧ i = .regw (byteAt f 2) (byteAt f 3)) ∨
    (byteAt f 1 = 0x02 ∧ 2 ≤ n ∧ i = .clrh) ∨
    (byteAt f 1 = 0x03 ∧ 4 ≤ n ∧ i = .rifeq (byteAt f 2) (byteAt f 3)) ∨
    (byteAt f 1 = 0x04 ∧ 4 ≤ n ∧ i = .riflt (byteAt f 2) (byteAt f 3)) ∨
    (byteAt f 1 = 0x05 ∧ 4 ≤ n ∧ i = .mode (byteAt f 2) (byteAt f 3)) ∨
    (isDefinedOpcode (byteAt f 1) = false ∧ 2 ≤ n ∧ i = .unk (byteAt f 1)) := by
  by_cases h2 : n < 2
  · simp [decodeFrame_short h2] at h
  · have h2' : 2 ≤ n := by omega
    obtain hop | hop | hop := opcode_cases (byteAt f 1)
    · rw [decodeFrame_clrh hop h2'] at h
      cases h; simp [hop, h2']
    · rw [decodeFrame_unk hop h2'] at h
      cases h; simp [hop, h2']
    · by_cases h4 : n < 4
      · obtain ⟨e, he⟩ := decodeFrame_pending hop h4
        simp [he] at h
      · have h4' : 4 ≤ n := by omega
        simp only [Machine.isFourByteOpcode, decide_eq_true_eq] at hop
        obtain hop | hop | hop | hop := hop
        · rw [decodeFrame_regw hop h4'] at h; cases h; simp [hop, h4']
        · rw [decodeFrame_rifeq hop h4'] at h; cases h; simp [hop, h4']
        · rw [decodeFrame_riflt hop h4'] at h; cases h; simp [hop, h4']
        · rw [decodeFrame_mode hop h4'] at h; cases h; simp [hop, h4']

/-- A decoded command is well formed. -/
theorem decodeFrame_wf {f : Frame} {n : Nat} {i : Instr} (h : decodeFrame f n = .ok i) : i.wf = true := by
  obtain ⟨_, _, rfl⟩ | ⟨_, _, rfl⟩ | ⟨_, _, rfl⟩ | ⟨_, _, rfl⟩ | ⟨_, _, rfl⟩ | ⟨hop, _, rfl⟩ := decodeFrame_cases h
  all_goals first | rfl | simp [Instr.wf, hop]

end Sys2Proof
end

