-- ==== Sys2Proof/Laws/Ops.lean ====
section
/-! SUPPORT. One spec lemma per shared operation: everything it can do. -/

namespace Sys2Proof.Machine

@[simp] theorem mapNext_next {α β : Type} (g : α → β) (a : α) : mapNext g (.next a) = .next (g a) := rfl

theorem mapNext_eq_next {α β : Type} {g : α → β} {o : Host.Outcome α Fault Refusal} {b : β}
    (h : mapNext g o = .next b) : ∃ a, o = .next a ∧ g a = b := by
  cases o with
  | next a => exact ⟨a, rfl, by simpa using h⟩
  | fault r => cases h
  | refused r => cases h

/-- The register map of 20_memory.md R57, id by id. -/
theorem regOf_table (id : Byte) :
    regOf id =
      (if id = 0x00 then some .sig else if id = 0x01 then some .m1pwm else if id = 0x02 then some .m2pwm
       else if id = 0x03 then some .m1dir else if id = 0x04 then some .m2dir else if id = 0x05 then some .ain1
       else if id = 0x06 then some .gpio1 else none) := by
  revert id; decide

theorem regOf_eq_ain1 {id : Byte} : regOf id = some .ain1 ↔ id = 0x05 := by revert id; decide

theorem regOf_eq_gpio1 {id : Byte} : regOf id = some .gpio1 ↔ id = 0x06 := by revert id; decide

theorem regOf_none {id : Byte} : regOf id = none ↔ 7 ≤ id.toNat := by revert id; decide

theorem rtAppend_room {s : State} (r : Rule) (h : s.rtCount < params.ruleCapacity) :
    rtAppend r s = (true, { s with rt := s.rt.setIfInBounds s.rtCount r, rtCount := s.rtCount + 1 }) := if_pos h

theorem rtAppend_full {s : State} (r : Rule) (h : ¬ s.rtCount < params.ruleCapacity) :
    rtAppend r s = (false, absorb .ruleTableFull s) := if_neg h

theorem ruleAt_append_lt {s : State} {r : Rule} {k : Nat} (hk : k < s.rtCount) :
    ((s.rt.setIfInBounds s.rtCount r)[k]?).getD ⟨0x00, 0x00, 0x00⟩ = ruleAt s k := by
  have : s.rtCount ≠ k := by omega
  simp [ruleAt, this]

theorem ruleAt_append_eq {s : State} {r : Rule} (h : s.rtCount < params.ruleCapacity) :
    ((s.rt.setIfInBounds s.rtCount r)[s.rtCount]?).getD ⟨0x00, 0x00, 0x00⟩ = r := by
  simp [h]

/-- `Compare` on the analog input, on GPIO-1, and on any other register. -/
theorem compareRegister_cases (reg thr : Byte) (s : State) :
    (reg = 0x05 ∧ compareRegister reg thr s = (some (difference s.ain.toNat thr), record (.hal (.readAnalog s.ain)) s)) ∨
    (reg = 0x06 ∧ compareRegister reg thr s =
      (some (difference (bitValue (gpioLevel s)) thr), record (.hal (.readDigital (gpioLevel s))) s)) ∨
    (reg ≠ 0x05 ∧ reg ≠ 0x06 ∧ compareRegister reg thr s = (none, absorb .invalidRegCompare s)) := by
  cases h : regOf reg with
  | none =>
    refine .inr (.inr ⟨?_, ?_, ?_⟩)
    · rintro rfl; exact absurd h (by decide)
    · rintro rfl; exact absurd h (by decide)
    · simp [compareRegister, h]
  | some r =>
    cases r
    case ain1 => exact .inl ⟨regOf_eq_ain1.1 h, by simp [compareRegister, h, readAnalog]⟩
    case gpio1 => exact .inr (.inl ⟨regOf_eq_gpio1.1 h, by simp [compareRegister, h, readDigital]⟩)
    all_goals
      refine .inr (.inr ⟨?_, ?_, by simp [compareRegister, h]⟩) <;> (rintro rfl; exact absurd h (by decide))

/-- A comparison adds one history entry, no write, and changes nothing else. -/
theorem compareRegister_snd (reg thr : Byte) (s : State) :
    ∃ e, e.isWrite = false ∧ (compareRegister reg thr s).2 = record e s := by
  obtain ⟨_, h⟩ | ⟨_, h⟩ | ⟨_, _, h⟩ := compareRegister_cases reg thr s <;> rw [h] <;> exact ⟨_, rfl, rfl⟩

theorem difference_eq_zero {v : Nat} {thr : Byte} : difference v thr = 0 ↔ v = thr.toNat := by
  simp only [difference]; omega

theorem difference_neg {v : Nat} {thr : Byte} : difference v thr < 0 ↔ v < thr.toNat := by
  simp only [difference]; omega

theorem matchesEq_compareRegister (reg thr : Byte) (s : State) :
    matchesEq (compareRegister reg thr s).1 = ruleHolds ⟨0x03, reg, thr⟩ s := by
  obtain ⟨rfl, h⟩ | ⟨rfl, h⟩ | ⟨h5, h6, h⟩ := compareRegister_cases reg thr s
  · rw [h]; simp [matchesEq, ruleHolds, comparedValue, difference_eq_zero]
  · rw [h]; simp [matchesEq, ruleHolds, comparedValue, difference_eq_zero]
  · rw [h]; simp only [matchesEq, ruleHolds, comparedValue, if_neg h5, if_neg h6]

theorem matchesLt_compareRegister (reg thr : Byte) (s : State) :
    matchesLt (compareRegister reg thr s).1 = ruleHolds ⟨0x04, reg, thr⟩ s := by
  obtain ⟨rfl, h⟩ | ⟨rfl, h⟩ | ⟨h5, h6, h⟩ := compareRegister_cases reg thr s
  · rw [h]; simp [matchesLt, ruleHolds, comparedValue, difference_neg]
  · rw [h]; simp [matchesLt, ruleHolds, comparedValue, difference_neg]
  · rw [h]; simp only [matchesLt, ruleHolds, comparedValue, if_neg h5, if_neg h6]

/-- An evaluation is a comparison, and a raise of the signal if it matches. -/
theorem raiseIf_cases (m : Option Int → Bool) (reg thr : Byte) (s : State) :
    ∃ e, e.isWrite = false ∧
      ((m (compareRegister reg thr s).1 = true ∧ raiseIf m reg thr s = writeDigital .sig true (record e s)) ∨
       (m (compareRegister reg thr s).1 = false ∧ raiseIf m reg thr s = record e s)) := by
  obtain ⟨e, hw, he⟩ := compareRegister_snd reg thr s
  refine ⟨e, hw, ?_⟩
  cases hm : m (compareRegister reg thr s).1
  · exact .inr ⟨rfl, by simp [raiseIf, hm, he]⟩
  · exact .inl ⟨rfl, by simp [raiseIf, hm, he]⟩

/-- A register write is one HAL write, or one absorbed condition. -/
theorem regWrite_cases (id v : Byte) (s : State) :
    (∃ r b, regWrite id v s = writeDigital r b s) ∨ (∃ r d, regWrite id v s = writePWM r d s) ∨
    (∃ c, regWrite id v s = absorb c s) := by
  unfold regWrite
  split <;> first
    | exact .inl ⟨_, _, rfl⟩ | exact .inr (.inl ⟨_, _, rfl⟩) | exact .inr (.inr ⟨_, rfl⟩)

/-- A direction change is one HAL operation on GPIO-1, or one absorbed condition. -/
theorem configureDirection_cases (id v : Byte) (s : State) :
    (id = 0x06 ∧ configureDirection id v s = setDirection (params.dirDecode v) s) ∨
    (id ≠ 0x06 ∧ ∃ c, configureDirection id v s = absorb c s) := by
  cases h : regOf id with
  | none => exact .inr ⟨by rintro rfl; exact absurd h (by decide), _, by simp [configureDirection, h]; rfl⟩
  | some r =>
    cases r
    case gpio1 => exact .inl ⟨regOf_eq_gpio1.1 h, by simp [configureDirection, h]⟩
    all_goals exact .inr ⟨by rintro rfl; exact absurd h (by decide), _, by simp [configureDirection, h]; rfl⟩

end Sys2Proof.Machine
end

