-- ==== Sys2Proof/Laws/Step.lean ====
section
/-! SUPPORT. What a command, a dispatch, an RX step, a LOOP step and a step can do: one inversion lemma each, which the
proofs of invariants cite instead of unfolding the machine. -/

namespace Sys2Proof.Machine

/-- Every command answers a next state (00_scope.md R13). -/
theorem exec_next (i : Instr) (s : State) : ∃ t, exec i s = .next t := by
  cases i with
  | regw _ _ => exact ⟨_, rfl⟩
  | clrh => exact ⟨_, rfl⟩
  | mode _ _ => exact ⟨_, rfl⟩
  | unk _ => exact ⟨_, rfl⟩
  | rifeq _ _ => simp only [exec, execRifeq]; split <;> exact ⟨_, rfl⟩
  | riflt _ _ => simp only [exec, execRiflt]; split <;> exact ⟨_, rfl⟩

theorem execRifeq_loop {s : State} (h : s.caller = .loop) (reg thr : Byte) :
    exec (.rifeq reg thr) s = .next (raiseIf matchesEq reg thr s) := by simp [exec, execRifeq, h]

theorem execRiflt_loop {s : State} (h : s.caller = .loop) (reg thr : Byte) :
    exec (.riflt reg thr) s = .next (raiseIf matchesLt reg thr s) := by simp [exec, execRiflt, h]

theorem execRifeq_delivery {s : State} (h : s.caller = .delivery) (reg thr : Byte) :
    exec (.rifeq reg thr) s = .next (rtAppend ⟨0x03, reg, thr⟩ s).2 := by simp [exec, execRifeq, h]; rfl

theorem execRiflt_delivery {s : State} (h : s.caller = .delivery) (reg thr : Byte) :
    exec (.riflt reg thr) s = .next (rtAppend ⟨0x04, reg, thr⟩ s).2 := by simp [exec, execRiflt, h]; rfl

/-- Everything a command can do: one HAL write of the delivery kind, one absorbed condition, one append of a RIFEQ or
RIFLT rule, or one evaluation. -/
theorem exec_cases {i : Instr} {s t : State} (h : exec i s = .next t) :
    (∃ r b, t = writeDigital r b s) ∨ (∃ r d, t = writePWM r d s) ∨ (∃ d, t = setDirection d s) ∨
    (∃ c, t = absorb c s) ∨
    (s.caller = .delivery ∧ s.rtCount < params.ruleCapacity ∧ ∃ op reg thr, (op = 0x03 ∨ op = 0x04) ∧
      t = { s with rt := s.rt.setIfInBounds s.rtCount ⟨op, reg, thr⟩, rtCount := s.rtCount + 1 }) ∨
    (s.caller = .loop ∧ ∃ e, e.isWrite = false ∧ (t = record e s ∨ t = writeDigital .sig true (record e s))) := by
  have append (op reg thr : Byte) (hc : s.caller = .delivery) (hop : op = 0x03 ∨ op = 0x04)
      (ht : (rtAppend ⟨op, reg, thr⟩ s).2 = t) :
      (∃ c, t = absorb c s) ∨
      (s.caller = .delivery ∧ s.rtCount < params.ruleCapacity ∧ ∃ op reg thr, (op = 0x03 ∨ op = 0x04) ∧
        t = { s with rt := s.rt.setIfInBounds s.rtCount ⟨op, reg, thr⟩, rtCount := s.rtCount + 1 }) := by
    by_cases hr : s.rtCount < params.ruleCapacity
    · rw [rtAppend_room _ hr] at ht
      exact .inr ⟨hc, hr, op, reg, thr, hop, ht.symm⟩
    · rw [rtAppend_full _ hr] at ht
      exact .inl ⟨_, ht.symm⟩
  have eval (m : Option Int → Bool) (reg thr : Byte) (ht : raiseIf m reg thr s = t) :
      ∃ e, e.isWrite = false ∧ (t = record e s ∨ t = writeDigital .sig true (record e s)) := by
    obtain ⟨e, hw, ⟨_, he⟩ | ⟨_, he⟩⟩ := raiseIf_cases m reg thr s
    · exact ⟨e, hw, .inr (ht.symm.trans he)⟩
    · exact ⟨e, hw, .inl (ht.symm.trans he)⟩
  cases i with
  | regw reg val =>
    injection h with h
    obtain ⟨r, b, hr⟩ | ⟨r, d, hr⟩ | ⟨c, hr⟩ := regWrite_cases reg val s
    · exact .inl ⟨r, b, h.symm.trans hr⟩
    · exact .inr (.inl ⟨r, d, h.symm.trans hr⟩)
    · exact .inr (.inr (.inr (.inl ⟨c, h.symm.trans hr⟩)))
  | clrh => injection h with h; exact .inl ⟨_, _, h.symm⟩
  | mode reg val =>
    injection h with h
    obtain ⟨_, hr⟩ | ⟨_, c, hr⟩ := configureDirection_cases reg val s
    · exact .inr (.inr (.inl ⟨_, h.symm.trans hr⟩))
    · exact .inr (.inr (.inr (.inl ⟨c, h.symm.trans hr⟩)))
  | unk _ => injection h with h; exact .inr (.inr (.inr (.inl ⟨_, h.symm⟩)))
  | rifeq reg thr =>
    cases hc : s.caller with
    | delivery =>
      rw [execRifeq_delivery hc] at h; injection h with h
      obtain ha | ha := append _ reg thr hc (.inl rfl) h
      · exact .inr (.inr (.inr (.inl ha)))
      · exact .inr (.inr (.inr (.inr (.inl (hc ▸ ha)))))
    | loop =>
      rw [execRifeq_loop hc] at h; injection h with h
      exact .inr (.inr (.inr (.inr (.inr ⟨rfl, eval _ reg thr h⟩))))
  | riflt reg thr =>
    cases hc : s.caller with
    | delivery =>
      rw [execRiflt_delivery hc] at h; injection h with h
      obtain ha | ha := append _ reg thr hc (.inr rfl) h
      · exact .inr (.inr (.inr (.inl ha)))
      · exact .inr (.inr (.inr (.inr (.inl (hc ▸ ha)))))
    | loop =>
      rw [execRiflt_loop hc] at h; injection h with h
      exact .inr (.inr (.inr (.inr (.inr ⟨rfl, eval _ reg thr h⟩))))

/-- What no command touches (the frame all commands share). -/
theorem exec_frame {i : Instr} {s t : State} (h : exec i s = .next t) :
    t.buf = s.buf ∧ t.len = s.len ∧ t.loopIdx = s.loopIdx ∧ t.ain = s.ain ∧ t.gpioPin = s.gpioPin ∧
    t.caller = s.caller ∧ t.script = s.script ∧ t.draws = s.draws := by
  obtain ⟨_, _, rfl⟩ | ⟨_, _, rfl⟩ | ⟨_, rfl⟩ | ⟨_, rfl⟩ | ⟨_, _, _, _, _, _, rfl⟩ | ⟨_, _, _, rfl | rfl⟩ :=
    exec_cases h <;> simp

/-- The table after a command: unchanged, or one RIFEQ or RIFLT rule longer. -/
theorem exec_table {i : Instr} {s t : State} (h : exec i s = .next t) :
    (t.rt = s.rt ∧ t.rtCount = s.rtCount) ∨
    (s.caller = .delivery ∧ s.rtCount < params.ruleCapacity ∧ t.rtCount = s.rtCount + 1 ∧
      ∃ op reg thr, (op = 0x03 ∨ op = 0x04) ∧ t.rt = s.rt.setIfInBounds s.rtCount ⟨op, reg, thr⟩) := by
  obtain ⟨_, _, rfl⟩ | ⟨_, _, rfl⟩ | ⟨_, rfl⟩ | ⟨_, rfl⟩ | ⟨hc, hr, op, reg, thr, hop, rfl⟩ | ⟨_, _, _, rfl | rfl⟩ :=
    exec_cases h
  case inr.inr.inr.inr.inl => exact .inr ⟨hc, hr, rfl, op, reg, thr, hop, rfl⟩
  all_goals simp

/-- The shadow stays the fold of the history through a command. -/
theorem exec_shadow {i : Instr} {s t : State} (h : exec i s = .next t) (hs : s.shadow = shadowAfter s.history) :
    t.shadow = shadowAfter t.history := by
  have hw (e : Happening) (he : e.isWrite = false) (w : Shadow) : e.applyTo w = w := by
    cases e with
    | absorbed _ => rfl
    | hal op => cases op <;> first | rfl | cases he
  obtain ⟨r, _, rfl⟩ | ⟨r, _, rfl⟩ | ⟨_, rfl⟩ | ⟨_, rfl⟩ | ⟨_, _, _, _, _, _, rfl⟩ | ⟨_, e, he, rfl | rfl⟩ :=
    exec_cases h
  · cases r <;> simp [State.shadow, shadowAfter, Happening.applyTo] at hs ⊢ <;> simp [← hs]
  · cases r <;> simp [State.shadow, shadowAfter, Happening.applyTo] at hs ⊢ <;> simp [← hs]
  · simp [State.shadow, shadowAfter, Happening.applyTo] at hs ⊢; simp [← hs]
  · simpa [State.shadow, shadowAfter, Happening.applyTo] using hs
  · simpa [State.shadow] using hs
  · simpa [State.shadow, shadowAfter, hw e he] using hs
  · simp [State.shadow, shadowAfter, hw e he] at hs ⊢; simp [← hs, Happening.applyTo]

/-- A state with another frame under assembly, loop position, script and draw count. -/
def rebase (f : Frame) (n k : Nat) (l : List Event) (d : Nat) (s : State) : State :=
  { s with buf := f, len := n, loopIdx := k, script := l, draws := d }

theorem compareRegister_rebase (reg thr : Byte) (f : Frame) (n k : Nat) (l : List Event) (d : Nat) (s : State) :
    compareRegister reg thr (rebase f n k l d s) =
      ((compareRegister reg thr s).1, rebase f n k l d (compareRegister reg thr s).2) := by
  unfold compareRegister
  split <;> rfl

theorem raiseIf_rebase (m : Option Int → Bool) (reg thr : Byte) (f : Frame) (n k : Nat) (l : List Event) (d : Nat)
    (s : State) : raiseIf m reg thr (rebase f n k l d s) = rebase f n k l d (raiseIf m reg thr s) := by
  simp only [raiseIf, compareRegister_rebase]
  split <;> rfl

theorem rtAppend_rebase (r : Rule) (f : Frame) (n k : Nat) (l : List Event) (d : Nat) (s : State) :
    (rtAppend r (rebase f n k l d s)).2 = rebase f n k l d (rtAppend r s).2 := by
  by_cases h : s.rtCount < params.ruleCapacity
  · rw [rtAppend_room r h, rtAppend_room (s := rebase f n k l d s) r h]; rfl
  · rw [rtAppend_full r h, rtAppend_full (s := rebase f n k l d s) r h]; rfl

/-- No command reads or writes the frame under assembly, the loop position or the outside's moves. -/
theorem exec_rebase (i : Instr) (f : Frame) (n k : Nat) (l : List Event) (d : Nat) (s : State) :
    exec i (rebase f n k l d s) = mapNext (rebase f n k l d) (exec i s) := by
  cases i with
  | regw reg val => simp only [exec, execRegw, regWrite]; split <;> rfl
  | clrh => rfl
  | mode reg val => simp only [exec, execMode, configureDirection]; split <;> rfl
  | unk _ => rfl
  | rifeq reg thr =>
    cases hc : s.caller with
    | delivery =>
      rw [execRifeq_delivery hc, execRifeq_delivery (s := rebase f n k l d s) hc, rtAppend_rebase]; rfl
    | loop => rw [execRifeq_loop hc, execRifeq_loop (s := rebase f n k l d s) hc, raiseIf_rebase]; rfl
  | riflt reg thr =>
    cases hc : s.caller with
    | delivery =>
      rw [execRiflt_delivery hc, execRiflt_delivery (s := rebase f n k l d s) hc, rtAppend_rebase]; rfl
    | loop => rw [execRiflt_loop hc, execRiflt_loop (s := rebase f n k l d s) hc, raiseIf_rebase]; rfl

/-- Resetting the buffer after a command is running the command with the buffer reset. -/
theorem exec_bufReset (i : Instr) (s : State) : mapNext bufReset (exec i s) = exec i (bufReset s) := by
  have h := exec_rebase i (bufReset s).buf (bufReset s).len s.loopIdx s.script s.draws s
  obtain ⟨t, ht⟩ := exec_next i s
  obtain ⟨_, _, hk, _, _, _, hl, hd⟩ := exec_frame ht
  have hr : rebase (bufReset s).buf (bufReset s).len s.loopIdx s.script s.draws t = bufReset t := by
    rw [← hk, ← hl, ← hd]; rfl
  rw [ht, mapNext_next, hr] at h
  rw [ht, mapNext_next]
  exact h.symm

/-- A dispatch is pending without effect, or runs the decoded command in the caller's mode. -/
theorem dispatch_cases {f : Frame} {n : Nat} {c : Agent} {s : State} {r : State × Bit}
    (h : dispatch f n c s = .next r) :
    (∃ e, decodeFrame f n = .error e ∧ r = (s, false)) ∨
    (∃ i u, decodeFrame f n = .ok i ∧ exec i { s with caller := c } = .next u ∧ r = (u, true)) := by
  unfold dispatch at h
  cases hd : decodeFrame f n with
  | error e => rw [hd] at h; injection h with h; exact .inl ⟨e, rfl, h.symm⟩
  | ok i =>
    rw [hd] at h
    obtain ⟨u, hu, hr⟩ := mapNext_eq_next h
    exact .inr ⟨i, u, rfl, hu, hr.symm⟩

theorem dispatch_error {f : Frame} {n : Nat} {e : Pending} (h : decodeFrame f n = .error e) (c : Agent) (s : State) :
    dispatch f n c s = .next (s, false) := by simp [dispatch, h]

theorem dispatch_ok {f : Frame} {n : Nat} {i : Instr} (h : decodeFrame f n = .ok i) (c : Agent) (s : State) :
    dispatch f n c s = mapNext (fun t => (t, true)) (exec i { s with caller := c }) := by simp [dispatch, h]

theorem dispatch_next (f : Frame) (n : Nat) (c : Agent) (s : State) : ∃ r, dispatch f n c s = .next r := by
  cases hd : decodeFrame f n with
  | error e => exact ⟨_, dispatch_error hd c s⟩
  | ok i =>
    obtain ⟨t, ht⟩ := exec_next i { s with caller := c }
    exact ⟨(t, true), by simp [dispatch_ok hd, ht]⟩

/-- An RX step abandons a full buffer, leaves a pending frame, or runs the completed command and resets the buffer. -/
theorem rxStep_cases {b : Byte} {s t : State} (h : rxStep b s = .next t) :
    (¬ s.len < 10 ∧ t = bufReset (absorb .frameOverflow s)) ∨
    (s.len < 10 ∧ ∃ e, decodeFrame (appendByte b s).buf (s.len + 1) = .error e ∧ t = appendByte b s) ∨
    (s.len < 10 ∧ ∃ i u, decodeFrame (appendByte b s).buf (s.len + 1) = .ok i ∧
      exec i { appendByte b s with caller := .delivery } = .next u ∧ t = bufReset u) := by
  unfold rxStep at h
  by_cases hl : s.len < params.maxFrameLen
  · rw [if_pos hl] at h
    obtain ⟨r, hr, ht⟩ := mapNext_eq_next h
    obtain ⟨e, he, rfl⟩ | ⟨i, u, hi, hu, rfl⟩ := dispatch_cases hr
    · exact .inr (.inl ⟨hl, e, he, ht.symm⟩)
    · exact .inr (.inr ⟨hl, i, u, hi, hu, ht.symm⟩)
  · rw [if_neg hl] at h
    injection h with h
    exact .inl ⟨hl, h.symm⟩

theorem rxStep_next (b : Byte) (s : State) : ∃ t, rxStep b s = .next t := by
  unfold rxStep
  split
  · obtain ⟨r, hr⟩ := dispatch_next (appendByte b s).buf (appendByte b s).len .delivery (appendByte b s)
    exact ⟨_, by rw [hr]; rfl⟩
  · exact ⟨_, rfl⟩

/-- An RX step that leaves the frame pending appends the byte and does nothing else. -/
theorem rxStep_pending {b : Byte} {s : State} {e : Pending} (hl : s.len < 10)
    (hd : decodeFrame (s.buf.setIfInBounds s.len b) (s.len + 1) = .error e) : rxStep b s = .next (appendByte b s) := by
  have hl' : s.len < params.maxFrameLen := hl
  have hd' : decodeFrame (appendByte b s).buf (appendByte b s).len = .error e := hd
  rw [rxStep, if_pos hl', dispatch_error hd']
  rfl

/-- An RX step that completes a command runs it in store mode and resets the buffer. -/
theorem rxStep_complete {b : Byte} {s : State} {i : Instr} (hl : s.len < 10)
    (hd : decodeFrame (s.buf.setIfInBounds s.len b) (s.len + 1) = .ok i) :
    rxStep b s = mapNext bufReset (exec i { appendByte b s with caller := .delivery }) := by
  have hl' : s.len < params.maxFrameLen := hl
  have hd' : decodeFrame (appendByte b s).buf (appendByte b s).len = .ok i := hd
  rw [rxStep, if_pos hl', dispatch_ok hd']
  obtain ⟨t, ht⟩ := exec_next i { appendByte b s with caller := .delivery }
  rw [ht]
  rfl

/-- A full buffer is reset, and the byte is lost. -/
theorem rxStep_full {b : Byte} {s : State} (hl : 10 ≤ s.len) : rxStep b s = .next (bufReset (absorb .frameOverflow s)) :=
  if_neg (by simpa [params] using hl)

/-- The stored rule's frame decodes to the command its opcode byte names. -/
theorem decodeFrame_rule_rifeq {r : Rule} (h : r.op = 0x03) : decodeFrame r.frame 4 = .ok (.rifeq r.reg r.thr) := by
  rw [decodeFrame_rifeq (by simp [Rule.frame, h]) (by decide)]; simp [Rule.frame]

theorem decodeFrame_rule_riflt {r : Rule} (h : r.op = 0x04) : decodeFrame r.frame 4 = .ok (.riflt r.reg r.thr) := by
  rw [decodeFrame_riflt (by simp [Rule.frame, h]) (by decide)]; simp [Rule.frame]

/-- A LOOP step wraps, or runs the stored command in eval mode and advances. -/
theorem loopStep_cases {s t : State} (h : loopStep s = .next t) :
    (¬ s.loopIdx < s.rtCount ∧ t = { s with loopIdx := 0 }) ∨
    (s.loopIdx < s.rtCount ∧ ∃ i u, decodeFrame (ruleAt s s.loopIdx).frame 4 = .ok i ∧
      exec i { s with caller := .loop } = .next u ∧ t = advanceLoop u) := by
  unfold loopStep at h
  by_cases hl : s.loopIdx < s.rtCount
  · rw [if_pos hl] at h
    obtain ⟨r, hr, ht⟩ := mapNext_eq_next h
    obtain ⟨e, he, _⟩ | ⟨i, u, hi, hu, rfl⟩ := dispatch_cases hr
    · exfalso
      have he' : decodeFrame (ruleAt s s.loopIdx).frame 4 = .error e := he
      obtain hop | hop | hop := opcode_cases (byteAt (ruleAt s s.loopIdx).frame 1)
      · rw [decodeFrame_clrh hop (by decide)] at he'; cases he'
      · rw [decodeFrame_unk hop (by decide)] at he'; cases he'
      · simp only [isFourByteOpcode, decide_eq_true_eq] at hop
        obtain hop | hop | hop | hop := hop
        · rw [decodeFrame_regw hop (by decide)] at he'; cases he'
        · rw [decodeFrame_rifeq hop (by decide)] at he'; cases he'
        · rw [decodeFrame_riflt hop (by decide)] at he'; cases he'
        · rw [decodeFrame_mode hop (by decide)] at he'; cases he'
    · exact .inr ⟨hl, i, u, hi, hu, ht.symm⟩
  · rw [if_neg hl] at h
    injection h with h
    exact .inl ⟨hl, h.symm⟩

theorem loopStep_next (s : State) : ∃ t, loopStep s = .next t := by
  unfold loopStep
  split
  · obtain ⟨r, hr⟩ := dispatch_next (ruleAt s s.loopIdx).frame params.ruleLen .loop s
    exact ⟨_, by rw [hr]; rfl⟩
  · exact ⟨_, rfl⟩

/-- A LOOP step on a stored rule. -/
theorem loopStep_evaluate {s : State} {i : Instr} (hl : s.loopIdx < s.rtCount)
    (hd : decodeFrame (ruleAt s s.loopIdx).frame 4 = .ok i) :
    loopStep s = mapNext advanceLoop (exec i { s with caller := .loop }) := by
  have hd' : decodeFrame (ruleAt s s.loopIdx).frame params.ruleLen = .ok i := hd
  rw [loopStep, if_pos hl, dispatch_ok hd']
  obtain ⟨t, ht⟩ := exec_next i { s with caller := .loop }
  rw [ht]
  rfl

/-- A LOOP step at the end of the stored rules. -/
theorem loopStep_wrap {s : State} (hl : s.rtCount ≤ s.loopIdx) : loopStep s = .next { s with loopIdx := 0 } :=
  if_neg (by omega)

/-- The taking of a move touches only the script and the draw count. -/
theorem nextEvent_snd (s : State) : ∃ l d, (nextEvent s).2 = { s with script := l, draws := d } := by
  unfold nextEvent
  split
  · exact ⟨_, _, rfl⟩
  · exact ⟨_, _, rfl⟩

theorem nextEvent_cons {s : State} {e : Event} {rest : List Event} (h : s.script = e :: rest) :
    nextEvent s = (e, { s with script := rest }) := by simp [nextEvent, h]

theorem step_of_nextEvent {s s' : State} {e : Event} (h : nextEvent s = (e, s')) : step s = runEvent e s' := by
  simp [step, h]

/-- One more step of a run that goes on. -/
theorem runSteps_succ {n : Nat} {s t : State} (h : step s = .next t) : runSteps (n + 1) s = runSteps n t := by
  have : Sys2Proof.core.step s = .next t := h
  simp only [runSteps, Host.Core.run, this]
  rfl

theorem runSteps_zero (s : State) : runSteps 0 s = .next s := rfl

end Sys2Proof.Machine
end

