-- ==== Sys2Proof/Laws/PerInstr.lean ====
section
/-! SUPPORT. The statements made per instruction: one lemma per constructor of `Instr`. -/

namespace Sys2Proof.Laws.EncodedLength

/-- The bytes sent for a command are one fewer than its frame's length, which counts the reserved index 0
(30_encoding.md R80), and they open with an opcode byte of the row of its mnemonic (R98). -/
def Statement (i : Instr) : Prop :=
  (encode i).length + 1 = i.frameLen ∧
  (i.wf = true → (opcodeRows.filter (fun r => r.covers ((encode i).getD 0 0x00))).map OpcodeRow.mnemonic = [i.mnemonic])

theorem regw (reg val : Byte) : Statement (.regw reg val) :=
  ⟨rfl, fun _ => (by decide : (opcodeRows.filter (fun r => r.covers 0x01)).map OpcodeRow.mnemonic = ["REGW"])⟩

theorem clrh : Statement .clrh := ⟨rfl, by decide⟩

theorem rifeq (reg thr : Byte) : Statement (.rifeq reg thr) :=
  ⟨rfl, fun _ => (by decide : (opcodeRows.filter (fun r => r.covers 0x03)).map OpcodeRow.mnemonic = ["RIFEQ"])⟩

theorem riflt (reg thr : Byte) : Statement (.riflt reg thr) :=
  ⟨rfl, fun _ => (by decide : (opcodeRows.filter (fun r => r.covers 0x04)).map OpcodeRow.mnemonic = ["RIFLT"])⟩

theorem mode (reg val : Byte) : Statement (.mode reg val) :=
  ⟨rfl, fun _ => (by decide : (opcodeRows.filter (fun r => r.covers 0x05)).map OpcodeRow.mnemonic = ["MODE"])⟩

/-- Every opcode byte outside the five belongs to exactly one row, and that row is one of UNK. -/
theorem unk_row (op : Byte) : isDefinedOpcode op = false →
    (opcodeRows.filter (fun r => r.covers op)).map OpcodeRow.mnemonic = ["UNK"] := by
  revert op; decide +revert

theorem unk (op : Byte) : Statement (.unk op) :=
  ⟨rfl, fun h => unk_row op (by simpa [Instr.wf] using h)⟩

end Sys2Proof.Laws.EncodedLength
end

