-- ==== Sys2Proof/Tests/Slice0.lean ====
section
/-! SUPPORT. The model's own tests: the well-formedness smoke test, decodings of words written out from the spec's
encodings, vectors of spec/95_test_vectors.md (each test names its vector), and for every obligation that has hypotheses
a witness that meets them. -/

namespace Sys2Proof.Tests

open Sys2Proof.Machine

/-! ### Helpers -/

/-- The next state of an outcome. -/
def nextOf {α : Type} : Host.Outcome α Fault Refusal → Option α
  | .next a => some a
  | .fault _ => none
  | .refused _ => none

/-- The reset state with moves to come. -/
def sending (script : List Event) : State := { State.reset with script := script }

/-- The received bytes held by the framer, and the byte that arrives next. -/
def holding (held : List Byte) (b : Byte) : State :=
  { State.reset with buf := frameOf held, len := held.length + 1, script := [.rx b] }

/-- One rule stored, the loop about to evaluate it in its next step. -/
def watching (r : Rule) : State :=
  { State.reset with rt := State.reset.rt.setIfInBounds 0 r, rtCount := 1, script := [.loop] }

/-- A table of ten equal rules. -/
def fullTable (r : Rule) : State :=
  { State.reset with rt := Vector.replicate params.ruleCapacity r, rtCount := 10 }

/-! ### Well-formedness: an ill-formed term for each defined opcode, refused; well-formed ones accepted -/

theorem test_wf_refuses_unk_with_defined_opcode :
    (Instr.unk 0x01).wf = false ∧ (Instr.unk 0x02).wf = false ∧ (Instr.unk 0x03).wf = false ∧
    (Instr.unk 0x04).wf = false ∧ (Instr.unk 0x05).wf = false := by decide

theorem test_wf_accepts :
    (Instr.unk 0x00).wf = true ∧ (Instr.unk 0x06).wf = true ∧ (Instr.unk 0xFF).wf = true ∧
    (Instr.regw 0xFF 0xFF).wf = true ∧ Instr.clrh.wf = true ∧ (Instr.rifeq 0x99 0x05).wf = true ∧
    (Instr.riflt 0xFF 0xFF).wf = true ∧ (Instr.mode 0x00 0x80).wf = true := by decide

/-! ### Decoding: words written out from 30_encoding.md R82, R83, R94, R98 -/

theorem test_decode_regw : decode [0x01, 0x01, 0x80] = .ok (.regw 0x01 0x80, []) := by rfl

theorem test_decode_clrh : decode [0x02, 0x02, 0x02] = .ok (.clrh, [0x02, 0x02]) := by rfl

theorem test_decode_rifeq : decode [0x03, 0x05, 0x64] = .ok (.rifeq 0x05 0x64, []) := by rfl

theorem test_decode_riflt : decode [0x04, 0x06, 0x01, 0x00] = .ok (.riflt 0x06 0x01, [0x00]) := by rfl

theorem test_decode_mode : decode [0x05, 0x06, 0xFF] = .ok (.mode 0x06 0xFF, []) := by rfl

/-- UK4 and UK5: the edges of the UNK rows, and the five opcodes with the high bit set. -/
theorem test_decode_unk_edges :
    ∀ op ∈ [0x00, 0x06, 0x07, 0x08, 0x0F, 0x10, 0x1F, 0x20, 0x3F, 0x40, 0x7F, 0x80, 0x81, 0x82, 0x83, 0x84, 0x85, 0xFF],
      decodeTableWord 8 (BitVec.toNat (w := 8) op) = some (Instr.unk op) := by decide

/-- Every row of spec/opcode_table.json, by its fixed bits. -/
theorem test_decode_table_rows :
    decodeTableWord 8 0x01 = some (.regw 0x00 0x00) ∧ decodeTableWord 8 0x02 = some .clrh ∧
    decodeTableWord 8 0x03 = some (.rifeq 0x00 0x00) ∧ decodeTableWord 8 0x04 = some (.riflt 0x00 0x00) ∧
    decodeTableWord 8 0x05 = some (.mode 0x00 0x00) ∧ decodeTableWord 24 0x800101 = some (.regw 0x01 0x80) := by
  decide

/-- The pseudo-instructions of 30_encoding.md R95. -/
theorem test_pseudo_instructions : encode Instr.pad = [0x00] ∧ encode Instr.seth = [0x01, 0x00, 0x01] := by decide

/-- A word placed after reset runs in the very next step: example S1, `REGW M1PWM, 0x80`. -/
theorem test_placed_word_runs :
    (nextOf (step (State.reset.withFetchWord 24 0x800101))).map (fun t => (t.pwm1, t.len)) = some (0x80, 1) := by
  decide

/-! ### Vectors, one step each -/

/-- W4: 0x80 is 128, positive. -/
theorem test_regw_w4 : (nextOf (step (holding [0x01, 0x00] 0x80))).map State.sig = some true := by decide

/-- W35: 0x86 does not alias GPIO-1. -/
theorem test_regw_w35 : (nextOf (step (holding [0x01, 0x86] 0x01))).map (fun t => (t.gpioOut, t.history)) =
    some (false, [.absorbed .invalidRegWrite]) := by decide

/-- A13: index 0 is not read; the reset of the buffer clears it. -/
theorem test_clrh_a13 :
    (nextOf (step { holding [] 0x02 with buf := (frameOf []).setIfInBounds 0 0xAA, sig := true })).map
      (fun t => (t.sig, t.buf)) = some (false, frameOf []) := by decide

/-- CL3: CLRH does not disarm a rule. -/
theorem test_clrh_cl3 :
    (nextOf (step { watching ⟨0x04, 0x05, 0x32⟩ with loopIdx := 1, sig := true, script := [.rx 0x02] })).map
      (fun t => (t.sig, t.rt[0], t.rtCount, t.loopIdx)) = some (false, ⟨0x04, 0x05, 0x32⟩, 1, 1) := by decide

/-- M10: the level latched while GPIO-1 is an input appears when the output is enabled. -/
theorem test_mode_m10 :
    (nextOf (step { holding [0x05, 0x06] 0x01 with gpioOut := true })).map (fun t => (t.gpioDir, padDriven t)) =
      some (.output, some true) := by decide

/-- M8: the analog input cannot be made an output. -/
theorem test_mode_m8 : (nextOf (step (holding [0x05, 0x05] 0x01))).map (fun t => (t.gpioDir, t.history)) =
    some (.input, [.absorbed .modeNotConfigurable]) := by decide

/-- UK6, first byte: an operand after an unknown opcode is not skipped; the framer is idle again. -/
theorem test_unk_uk6 : (nextOf (step { holding [] 0x06 with pwm1 := 0x40 })).map (fun t => (t.len, t.pwm1)) =
    some (1, 0x40) := by decide

/-- ST8: storing does not evaluate. -/
theorem test_rifeq_st8 :
    (nextOf (step { holding [0x03, 0x05] 0x64 with ain := 100 })).map
      (fun t => (t.rt[0], t.rtCount, t.sig, t.history)) = some (⟨0x03, 0x05, 0x64⟩, 1, false, []) := by decide

/-- E26: the pin reads 1, not 0xFF. -/
theorem test_rifeq_e26 :
    (nextOf (step { watching ⟨0x03, 0x06, 0xFF⟩ with gpioPin := true })).map (fun t => (t.sig, t.loopIdx)) =
      some (false, 1) := by decide

/-- ST10: a full table drops the rule. -/
theorem test_riflt_st10 :
    (nextOf (step { fullTable ⟨0x03, 0x05, 0x01⟩ with
      buf := frameOf [0x04, 0x05], len := 3, loopIdx := 7, script := [.rx 0x32] })).map
      (fun t => (t.rtCount, t.rt[9], t.loopIdx, t.len)) = some (10, ⟨0x03, 0x05, 0x01⟩, 7, 1) := by decide

/-- E17: threshold 0x80 is 128, not −128. -/
theorem test_riflt_e17 :
    (nextOf (step { watching ⟨0x04, 0x05, 0x80⟩ with ain := 0x7F })).map State.sig = some true := by decide

/-- A8: 0x02 in operand position is a register id. -/
theorem test_framer_a8 : (nextOf (step { holding [0x03] 0x02 with sig := true })).map (fun t => (t.len, t.buf, t.sig)) =
    some (3, frameOf [0x03, 0x02], true) := by decide

/-- A10: the byte that finds the buffer full is dropped with it. -/
theorem test_framer_a10 :
    (nextOf (step { holding [0x01, 0x01, 0x11, 0x22, 0x33, 0x44, 0x55, 0x66, 0x77] 0x02 with sig := true })).map
      (fun t => (t.len, t.buf, t.sig, t.pwm1)) = some (1, frameOf [], true, 0x00) := by decide

/-- A11: at length 10 a REGW runs with the operands at indices 2 and 3. -/
theorem test_framer_a11 :
    (nextOf (step (holding [0x01, 0x01, 0x55, 0x00, 0x00, 0x00, 0x00, 0x00] 0x77))).map (fun t => (t.len, t.pwm1)) =
      some (1, 0x55) := by decide

/-- L6: the loop position reaches 10, and a wrap returns it to 0. -/
theorem test_loop_l6 :
    (nextOf (step { fullTable ⟨0x03, 0x05, 0x01⟩ with loopIdx := 9, script := [.loop] })).map State.loopIdx = some 10 ∧
    (nextOf (step { fullTable ⟨0x03, 0x05, 0x01⟩ with loopIdx := 10, script := [.loop] })).map State.loopIdx =
      some 0 := by decide

/-- E32: while GPIO-1 is an output a comparison reads the level the block drives. -/
theorem test_gpio_e32 :
    (nextOf (step { watching ⟨0x03, 0x06, 0x01⟩ with gpioDir := .output, gpioOut := true })).map State.sig =
      some true := by decide

/-- 40_assembler.md R116: the reset state's buffer is that of a buffer reset. -/
theorem test_reset_framer_idle : State.reset.len = 1 ∧ State.reset.buf = frameOf [] := by decide

/-! ### Witnesses: concrete values that meet the hypotheses of each obligation -/

theorem witness_EncodedCommandDecodesToItself : (Instr.unk 0x06).wf = true ∧ (Instr.regw 0xFF 0xFF).wf = true := by
  decide

theorem witness_DecodedBytesAreItsEncoding : decode [0x05, 0x06, 0x01, 0x02] = .ok (.mode 0x06 0x01, [0x02]) := by rfl

theorem witness_OpcodeAloneFixesFrameLength :
    isFourByteOpcode (byteAt (frameOf [0x01]) 1) = true ∧ isFourByteOpcode (byteAt (frameOf [0x06]) 1) = false ∧
    decodeFrame (frameOf [0x01, 0x05, 0xFF]) 4 = .ok (.regw 0x05 0xFF) ∧
    decodeFrame (frameOf [0x06]) 2 = .ok (.unk 0x06) := ⟨by decide, by decide, rfl, rfl⟩

theorem witness_TableRowsPartitionTheOpcodes : decodeFrame (frameOf [0x07, 0x00]) 4 = .ok (.unk 0x07) := by rfl

theorem witness_RegOperandIsAWholeByte :
    byteAt (frameOf [0x01, 0x86]) 1 = 0x01 ∧ byteAt (frameOf [0x03]) 1 = 0x03 ∧ byteAt (frameOf [0x04]) 1 = 0x04 ∧
    byteAt (frameOf [0x05]) 1 = 0x05 ∧ 4 ≤ 4 ∧ 7 ≤ (0x07 : Byte).toNat ∧ 7 ≤ (0xFF : Byte).toNat := by decide

theorem witness_DirectionCodeZeroIsInput : (0x01 : Byte) ≠ 0x00 ∧ (0xFF : Byte) ≠ 0x00 := by decide

theorem witness_ShortFrameNeverDispatches : 1 < 2 ∧ byteAt (frameOf [0x02]) 1 = 0x02 := by decide

theorem witness_FourByteCommandPendsBelowFour :
    isFourByteOpcode (byteAt (frameOf [0x01, 0x07]) 1) = true ∧ 3 < 4 ∧
    isFourByteOpcode (byteAt (frameOf [0x05]) 1) = true ∧ 2 < 4 := by decide

/-- DP10: the bytes beyond index 3 differ. -/
theorem witness_DispatchReadsOnlyOpcodeAndOperands :
    let f := frameOf [0x01, 0x01, 0x80]
    let g := frameOf [0x01, 0x01, 0x80, 0xFF, 0xFF]
    f ≠ g ∧ byteAt f 1 = byteAt g 1 ∧ byteAt f 2 = byteAt g 2 ∧ byteAt f 3 = byteAt g 3 := by decide

theorem witness_OneDispatchOneEffect :
    (nextOf (dispatch (frameOf [0x03, 0x05, 0x64]) 4 .loop { State.reset with ain := 100 })).map
      (fun r => (r.1.history, r.2)) = some ([.hal (.writeDigital .sig true), .hal (.readAnalog 100)], true) ∧
    (nextOf (dispatch (frameOf [0x03, 0x05, 0x64]) 4 .delivery State.reset)).map (fun r => r.1.rtCount) = some 1 ∧
    nextOf (dispatch (frameOf [0x03, 0x05]) 3 .delivery State.reset) = some (State.reset, false) := by decide

theorem witness_ClrhDrivesSignalLow :
    byteAt (frameOf [0x02]) 1 = 0x02 ∧ 2 ≤ 2 ∧ State.reset.len = 1 ∧
    (let s := { watching ⟨0x04, 0x05, 0x32⟩ with ain := 49, sig := true }
     TableShape s ∧ s.loopIdx < s.rtCount ∧ ruleHolds (ruleAt s s.loopIdx) s = true) := by
  refine ⟨by decide, by decide, by decide, ⟨by decide, by decide, ?_⟩, by decide, by decide⟩
  intro k hk
  obtain rfl : k = 0 := by have : k < 1 := hk; omega
  decide

theorem witness_UnknownOpcodeIsConsumedAlone :
    (0x00 : Byte) ≠ 0x01 ∧ (0x00 : Byte) ≠ 0x05 ∧ (0x06 : Byte) ≠ 0x01 ∧ (0x06 : Byte) ≠ 0x02 ∧ (0x06 : Byte) ≠ 0x03 ∧
    (0x06 : Byte) ≠ 0x04 ∧ (0x06 : Byte) ≠ 0x05 ∧ byteAt (frameOf [0x06]) 1 = 0x06 ∧ State.reset.len = 1 := by decide

theorem witness_RegwElsewhereWritesNothing : 7 ≤ (0x07 : Byte).toNat ∧ 7 ≤ (0xFF : Byte).toNat := by decide

theorem witness_ModeElsewhereConfiguresNothing :
    (0x00 : Byte).toNat ≤ 5 ∧ (0x05 : Byte).toNat ≤ 5 ∧ 7 ≤ (0x07 : Byte).toNat ∧ 7 ≤ (0xFF : Byte).toNat := by decide

/-- Each command reaches a next state; the register named, and one that is not. -/
theorem witness_ImmediateCommandsFrame :
    (∃ t, exec (.regw 0x01 0x80) State.reset = .next t) ∧ (∃ t, exec (.regw 0x07 0x80) State.reset = .next t) ∧
    (∃ t, exec .clrh State.reset = .next t) ∧ (∃ t, exec (.mode 0x06 0x01) State.reset = .next t) ∧
    (∃ t, exec (.mode 0x05 0x01) State.reset = .next t) ∧ (∃ t, exec (.unk 0x00) State.reset = .next t) :=
  ⟨⟨_, rfl⟩, ⟨_, rfl⟩, ⟨_, rfl⟩, ⟨_, rfl⟩, ⟨_, rfl⟩, ⟨_, rfl⟩⟩

theorem witness_LatchedLevelShowsWhenOutputEnabled :
    params.dirDecode 0x01 = .output ∧ params.dirDecode 0xFF = .output ∧ State.reset.gpioDir = .input := by decide

theorem witness_ConditionalCommandsAreStored :
    State.reset.caller = .delivery ∧ ({ fullTable ⟨0x03, 0x05, 0x01⟩ with rtCount := 9 } : State).rtCount < 10 ∧
    (fullTable ⟨0x03, 0x05, 0x01⟩).caller = .delivery ∧ 10 ≤ (fullTable ⟨0x03, 0x05, 0x01⟩).rtCount := by decide

theorem witness_ConditionalStoreFrame :
    State.reset.caller = .delivery ∧ (∃ t, exec (.rifeq 0x05 0x64) State.reset = .next t) ∧
    (fullTable ⟨0x03, 0x05, 0x01⟩).caller = .delivery ∧ 10 ≤ (fullTable ⟨0x03, 0x05, 0x01⟩).rtCount ∧
    (∃ t, exec (.riflt 0x06 0x01) (fullTable ⟨0x03, 0x05, 0x01⟩) = .next t) :=
  ⟨rfl, ⟨_, rfl⟩, rfl, by decide, ⟨_, rfl⟩⟩

/-- T2 and T3: the last free entry, and the full table. -/
theorem witness_AppendStoresAtCountOrDrops :
    ({ fullTable ⟨0x03, 0x05, 0x01⟩ with rtCount := 9 } : State).rtCount < 10 ∧ (0 : Nat) ≠ 9 ∧
    10 ≤ (fullTable ⟨0x03, 0x05, 0x01⟩).rtCount := by decide

theorem witness_CompareSubtractsTheLiveValue :
    (0x04 : Byte) ≠ 0x05 ∧ (0x04 : Byte) ≠ 0x06 ∧ (0x07 : Byte) ≠ 0x05 ∧ (0x07 : Byte) ≠ 0x06 := by decide

theorem witness_AnalogRulesCompareUnsigned :
    ({ State.reset with caller := .loop, ain := 0xFF } : State).caller = .loop := by decide

theorem witness_GpioRulesFollowTheMatchTable :
    ({ State.reset with caller := .loop, gpioPin := true } : State).caller = .loop := by decide

theorem witness_GpioReadsPinOrItsOwnOutput :
    State.reset.gpioDir = .input ∧ ({ State.reset with gpioDir := .output, gpioPin := true } : State).gpioDir = .output := by
  decide

theorem witness_InvalidRegisterNeverMatches :
    ({ State.reset with caller := .loop } : State).caller = .loop ∧ (0x00 : Byte) ≠ 0x05 ∧ (0x00 : Byte) ≠ 0x06 ∧
    (0xFF : Byte) ≠ 0x05 ∧ (0xFF : Byte) ≠ 0x06 := by decide

/-- E9, and RIFEQ on the same sample: each command's own condition holds and the signal rises. -/
theorem witness_ConditionalEvalFrame :
    let s : State := { State.reset with caller := .loop, ain := 0x31 }
    s.caller = .loop ∧ (∃ t, exec (.rifeq 0x05 0x31) s = .next t ∧ t.sig ≠ s.sig) ∧
    (∃ t, exec (.riflt 0x05 0x32) s = .next t ∧ t.sig ≠ s.sig) := ⟨rfl, ⟨_, rfl, by decide⟩, ⟨_, rfl, by decide⟩⟩

/-- E39 with a signal that is high, and a store. -/
theorem witness_ConditionalsNeverLowerSignal :
    let s : State := { State.reset with caller := .loop, ain := 0x63, sig := true }
    (∃ t, exec (.rifeq 0x05 0x64) s = .next t) ∧ s.sig = true ∧ ruleHolds ⟨0x03, 0x05, 0x64⟩ s = false ∧
    (∃ t, exec (.riflt 0x05 0x64) State.reset = .next t) ∧ State.reset.caller = .delivery :=
  ⟨⟨_, rfl⟩, rfl, by decide, ⟨_, rfl⟩, rfl⟩

/-- A completed command (A11, at the last index), and a pending frame (A1). -/
theorem witness_ReceivedByteRunsCompletedCommand :
    let s := holding [0x01, 0x01, 0x55, 0x00, 0x00, 0x00, 0x00, 0x00] 0x77
    let p := holding [] 0x01
    nextEvent s = (.rx 0x77, { s with script := [] }) ∧ s.len < 10 ∧
    decodeFrame (s.buf.setIfInBounds s.len 0x77) (s.len + 1) = .ok (.regw 0x01 0x55) ∧
    nextEvent p = (.rx 0x01, { p with script := [] }) ∧ p.len < 10 ∧
    decodeFrame (p.buf.setIfInBounds p.len 0x01) (p.len + 1) = .error .operandsMissing :=
  ⟨rfl, by decide, rfl, rfl, by decide, rfl⟩

/-- A10. -/
theorem witness_FullBufferIsAbandoned :
    let s := holding [0x01, 0x01, 0x11, 0x22, 0x33, 0x44, 0x55, 0x66, 0x77] 0x02
    nextEvent s = (.rx 0x02, { s with script := [] }) ∧ 10 ≤ s.len := ⟨rfl, by decide⟩

theorem witness_CommandSentFromIdleRuns :
    let s := sending [.rx 0x03, .rx 0x05, .rx 0x64, .loop]
    (Instr.rifeq 0x05 0x64).wf = true ∧ FramerIdle s ∧ s.script = (encode (.rifeq 0x05 0x64)).map Event.rx ++ [.loop] :=
  ⟨rfl, ⟨rfl, by decide⟩, rfl⟩

/-- P5, and the other two shapes. -/
theorem witness_TwoZeroBytesRegainFraming :
    FramerShape (sending [.rx 0x00, .rx 0x00]) ∧
    FramerShape { sending [.rx 0x00, .rx 0x00] with buf := frameOf [0x01], len := 2 } ∧
    FramerShape { sending [.rx 0x00, .rx 0x00] with buf := frameOf [0x05, 0xFF], len := 3 } :=
  ⟨.inl ⟨rfl, by decide⟩, .inr (.inl ⟨0x01, by decide, rfl, rfl⟩), .inr (.inr ⟨0x05, 0xFF, by decide, rfl, rfl⟩)⟩

theorem watching_shape (r : Rule) (h : r.op = 0x03 ∨ r.op = 0x04) : TableShape (watching r) := by
  refine ⟨Nat.zero_le 1, (by decide : 1 ≤ 10), ?_⟩
  intro k hk
  obtain rfl : k = 0 := by have : k < 1 := hk; omega
  exact h

theorem witness_LoopStepRunsTheStoredRule :
    let s := watching ⟨0x04, 0x05, 0x32⟩
    nextEvent s = (.loop, { s with script := [] }) ∧ s.loopIdx < s.rtCount ∧ ruleAt s s.loopIdx = ⟨0x04, 0x05, 0x32⟩ ∧
    decodeFrame (frameOf [0x04, 0x05, 0x32]) 4 = .ok (.riflt 0x05 0x32) ∧
    (let w := { s with loopIdx := 1 }
     nextEvent w = (.loop, { w with script := [] }) ∧ w.rtCount ≤ w.loopIdx) :=
  ⟨rfl, by decide, by decide, rfl, rfl, by decide⟩

theorem witness_EvaluationRaisesSignalExactlyOnMatch :
    let s := watching ⟨0x04, 0x05, 0x32⟩
    nextEvent s = (.loop, { s with script := [] }) ∧ TableShape { s with script := [] } ∧ s.loopIdx < s.rtCount :=
  ⟨rfl, watching_shape _ (.inr rfl), by decide⟩

/-- One rule, whose condition holds at its evaluation, and the wrap. -/
theorem witness_PassRaisesSignalByOr :
    let s := { watching ⟨0x03, 0x05, 0x64⟩ with script := [.ain 0x64, .gpioPin true, .loop, .loop] }
    let samples : List (Byte × Bit) := [(0x64, true)]
    TableShape s ∧ s.loopIdx = 0 ∧ samples.length = s.rtCount ∧
    s.script = samples.flatMap (fun p => [Event.ain p.1, Event.gpioPin p.2, Event.loop]) ++ Event.loop :: [] :=
  ⟨watching_shape _ (.inl rfl), rfl, rfl, rfl⟩

theorem witness_LoopNeverLowersSignal :
    let s := { watching ⟨0x03, 0x05, 0x64⟩ with script := [.loop], sig := true }
    TableShape s ∧ (∀ e ∈ [Event.loop], isLoopOrInput e = true) ∧ s.script = [Event.loop] ++ [] ∧
    (∃ t, runSteps 1 s = .next t) ∧ s.sig = true :=
  ⟨watching_shape _ (.inl rfl), by decide, rfl, ⟨_, rfl⟩, rfl⟩

theorem witness_EachAgentIssuesItsOwnOperations :
    TableShape (watching ⟨0x03, 0x05, 0x64⟩) ∧ (∃ t, loopStep (watching ⟨0x03, 0x05, 0x64⟩) = .next t) ∧
    (∃ t, rxStep 0x02 State.reset = .next t) :=
  ⟨watching_shape _ (.inl rfl), ⟨_, rfl⟩, ⟨_, rfl⟩⟩

theorem witness_EachAgentKeepsToItsOwnStores :
    (∃ t, runEvent (.rx 0x02) State.reset = .next t) ∧ Event.rx 0x02 ≠ .reset ∧ Event.rx 0x02 ≠ .loop ∧
    (∃ t, runEvent .loop State.reset = .next t) ∧ Event.loop ≠ .reset ∧ (∀ b, Event.loop ≠ .rx b) :=
  ⟨⟨_, rfl⟩, by decide, by decide, ⟨_, rfl⟩, by decide, by simp⟩

theorem witness_ScriptGivesTheNextMove : (sending [.rx 0x00, .loop]).script = .rx 0x00 :: [.loop] := by rfl

theorem witness_OnlyTheEnvironmentChangesInputs :
    (∃ t, runEvent .loop State.reset = .next t) ∧ (∀ v, Event.loop ≠ .ain v) ∧ (∀ raw, Event.loop ≠ .sample raw) ∧
    (∀ g, Event.loop ≠ .gpioPin g) := ⟨⟨_, rfl⟩, by simp, by simp, by simp⟩

theorem witness_StoredRulesAreImmutable :
    let s := { watching ⟨0x03, 0x05, 0x64⟩ with buf := frameOf [0x04, 0x05], len := 3, script := [.rx 0xFF] }
    nextEvent s = (.rx 0xFF, { s with script := [] }) ∧ (∃ t, step s = .next t) ∧ Event.rx 0xFF ≠ .reset ∧ 0 < s.rtCount ∧
    nextEvent { s with script := [.reset] } = (.reset, { s with script := [] }) ∧
    (∃ t, step { s with script := [.reset] } = .next t) :=
  ⟨rfl, ⟨_, rfl⟩, by decide, by decide, rfl, ⟨_, rfl⟩⟩

/-- A match in a LOOP step, and a CLRH on a signal that is high. -/
theorem witness_SignalChangesOnlyByNamedMoves :
    let s := { watching ⟨0x03, 0x05, 0x64⟩ with ain := 0x64 }
    nextEvent s = (.loop, { s with script := [] }) ∧ TableShape { s with script := [] } ∧
    (∃ t, step s = .next t ∧ t.sig ≠ s.sig) ∧
    (let c := { holding [] 0x02 with sig := true }
     nextEvent c = (.rx 0x02, { c with script := [] }) ∧ TableShape { c with script := [] } ∧
     ∃ t, step c = .next t ∧ t.sig ≠ c.sig) :=
  ⟨rfl, watching_shape _ (.inl rfl), ⟨_, rfl, by decide⟩, rfl,
    ⟨Nat.le_refl 0, by decide, fun _ hk => absurd hk (Nat.not_lt_zero _)⟩, ⟨_, rfl, by decide⟩⟩

/-- W9 and W14. -/
theorem witness_PwmDutyIsTheLastRegw :
    let s := holding [0x01, 0x01] 0x80
    let u := holding [0x01, 0x02] 0x80
    nextEvent s = (.rx 0x80, { s with script := [] }) ∧ s.len < 10 ∧
    decodeFrame (s.buf.setIfInBounds s.len 0x80) (s.len + 1) = .ok (.regw 0x01 0x80) ∧
    decodeFrame (u.buf.setIfInBounds u.len 0x80) (u.len + 1) = .ok (.regw 0x02 0x80) ∧
    TableShape { s with script := [] } ∧ Event.rx 0x80 ≠ .reset ∧
    (∃ t, step s = .next t ∧ t.pwm1 ≠ s.pwm1) ∧ (∃ t, step u = .next t ∧ t.pwm2 ≠ u.pwm2) :=
  ⟨rfl, by decide, rfl, rfl, ⟨Nat.le_refl 0, by decide, fun _ hk => absurd hk (Nat.not_lt_zero _)⟩, by decide,
    ⟨_, rfl, by decide⟩, ⟨_, rfl, by decide⟩⟩

theorem witness_StepKeepsShadowAsFoldOfTrace :
    (sending [.rx 0x02]).shadow = shadowAfter (sending [.rx 0x02]).history ∧
    (∃ t, step (sending [.rx 0x02]) = .next t) := ⟨rfl, ⟨_, rfl⟩⟩

theorem witness_EveryMoveKeepsTheShapes :
    Inv (sending [.rx 0x02]) ∧ (∃ t, step (sending [.rx 0x02]) = .next t) :=
  ⟨⟨.inl ⟨rfl, by decide⟩, ⟨Nat.le_refl 0, by decide, fun _ hk => absurd hk (Nat.not_lt_zero _)⟩, rfl⟩, ⟨_, rfl⟩⟩

theorem witness_BoardResetRestoresTheResetState :
    nextEvent { sending [.reset] with sig := true } = (.reset, { sending [] with sig := true }) := by rfl

theorem witness_TableWordRunsInTheNextStep :
    decodeTableWord 8 0x02 = some .clrh ∧ decodeTableWord 24 0x320504 = some (.riflt 0x05 0x32) := by decide

/-- W2, W17, W22, W28 and M1, each in its last RX step. -/
theorem witness_OutputsChangeOnlyByTheirCommand :
    let g (id : Byte) := holding [0x01, id] 0x01
    let m := holding [0x05, 0x06] 0x01
    (∀ id, nextEvent (g id) = (.rx 0x01, { g id with script := [] }) ∧ (g id).len < 10) ∧
    nextEvent m = (.rx 0x01, { m with script := [] }) ∧ m.len < 10 ∧ Event.rx 0x01 ≠ .reset ∧
    (∀ id, TableShape { g id with script := [] }) ∧ TableShape { m with script := [] } ∧
    (∀ id, decodeFrame ((g id).buf.setIfInBounds (g id).len 0x01) ((g id).len + 1) = .ok (.regw id 0x01)) ∧
    decodeFrame (m.buf.setIfInBounds m.len 0x01) (m.len + 1) = .ok (.mode 0x06 0x01) ∧
    (∃ t, step (g 0x00) = .next t ∧ t.sig = true) ∧ (∃ t, step (g 0x03) = .next t ∧ t.dir1 ≠ (g 0x03).dir1) ∧
    (∃ t, step (g 0x04) = .next t ∧ t.dir2 ≠ (g 0x04).dir2) ∧
    (∃ t, step (g 0x06) = .next t ∧ t.gpioOut ≠ (g 0x06).gpioOut) ∧
    (∃ t, step m = .next t ∧ t.gpioDir ≠ m.gpioDir) :=
  have empty (s : State) (hi : s.loopIdx = 0) (hc : s.rtCount = 0) : TableShape s :=
    ⟨by omega, by omega, fun k hk => absurd hk (by omega)⟩
  ⟨fun _ => ⟨rfl, (by decide : 3 < 10)⟩, rfl, by decide, by decide, fun _ => empty _ rfl rfl, empty _ rfl rfl, fun _ => rfl, rfl,
    ⟨_, rfl, rfl⟩, ⟨_, rfl, by decide⟩, ⟨_, rfl, by decide⟩, ⟨_, rfl, by decide⟩, ⟨_, rfl, by decide⟩⟩

end Sys2Proof.Tests
end

/-! PROOFS. Every step is total and has exactly one next state (00_scope.md R13). -/

namespace Sys2Proof.Machine

/-- No move faults or refuses: the two agents' steps are total, and the environment's moves and the board reset are
unconditional. -/
theorem runEvent_next (e : Event) (s : State) : ∃ t, runEvent e s = .next t := by
  cases e with
  | rx b => exact rxStep_next b s
  | loop => exact loopStep_next s
  | ain v => exact ⟨_, rfl⟩
  | sample raw => exact ⟨_, rfl⟩
  | gpioPin g => exact ⟨_, rfl⟩
  | reset => exact ⟨_, rfl⟩

/-- A step is the move the state or the outside names next. -/
theorem step_next (s : State) : ∃ t, step s = .next t := runEvent_next (nextEvent s).1 (nextEvent s).2

/-- An outcome is one value, so the next state it gives is the only one. -/
theorem existsUnique_next {o : Host.Outcome State Fault Refusal} (h : ∃ t, o = .next t) : ∃! t, o = .next t := by
  obtain ⟨t, ht⟩ := h
  exact ⟨t, ht, fun _ hu => Host.Outcome.next.inj (hu.symm.trans ht)⟩

/-- Settles O44: every agent's step, every event and every step give a next state, and an outcome holds only one. -/
theorem everyStepYieldsANextState : Obligations.EveryStepYieldsANextState :=
  ⟨fun s => existsUnique_next (step_next s), fun b s => existsUnique_next (rxStep_next b s),
    fun s => existsUnique_next (loopStep_next s), runEvent_next⟩

end Sys2Proof.Machine

/-! PROOFS. A stored rule is immutable and never removed (10_state.md R27): every move but a reset leaves the rule table
alone or appends one rule to it. -/

namespace Sys2Proof.Machine

/-- The table of `t` is that of `s`, or that of `s` with one RIFEQ or RIFLT rule appended where there was room. -/
def SameTableOrAppend (s t : State) : Prop :=
  SameTable s t ∨
  (s.rtCount < params.ruleCapacity ∧ t.rtCount = s.rtCount + 1 ∧
    ∃ r : Rule, (r.op = 0x03 ∨ r.op = 0x04) ∧ t.rt = s.rt.setIfInBounds s.rtCount r)

theorem SameTable.rtCount_eq {s t : State} (h : SameTable s t) : t.rtCount = s.rtCount := h.2

theorem SameTable.ruleAt_eq {s t : State} (h : SameTable s t) (k : Nat) : ruleAt t k = ruleAt s k := by
  simp only [ruleAt, h.1]

theorem SameTableOrAppend.rtCount_cases {s t : State} (h : SameTableOrAppend s t) :
    t.rtCount = s.rtCount ∨ t.rtCount = s.rtCount + 1 :=
  h.imp SameTable.rtCount_eq fun ⟨_, hcount, _⟩ => hcount

theorem SameTableOrAppend.ruleAt_eq {s t : State} (h : SameTableOrAppend s t) {k : Nat} (hk : k < s.rtCount) :
    ruleAt t k = ruleAt s k := by
  obtain hsame | ⟨_, _, r, _, hrt⟩ := h
  · exact hsame.ruleAt_eq k
  · rw [ruleAt, hrt]
    exact ruleAt_append_lt hk

theorem exec_sameTableOrAppend {i : Instr} {s t : State} (h : exec i s = .next t) : SameTableOrAppend s t :=
  (exec_table h).imp id fun ⟨_, hroom, hcount, op, reg, thr, hop, hrt⟩ =>
    ⟨hroom, hcount, ⟨op, reg, thr⟩, hop, hrt⟩

/-- Only the store mode appends. -/
theorem exec_loop_sameTable {i : Instr} {s t : State} (hc : s.caller = .loop) (h : exec i s = .next t) :
    SameTable s t := by
  obtain hsame | ⟨hd, _⟩ := exec_table h
  · exact hsame
  · rw [hc] at hd
    cases hd

theorem rxStep_sameTableOrAppend {b : Byte} {s t : State} (h : rxStep b s = .next t) : SameTableOrAppend s t := by
  obtain ⟨_, rfl⟩ | ⟨_, _, _, rfl⟩ | ⟨_, i, u, _, hu, rfl⟩ := rxStep_cases h
  case inl => exact .inl ⟨rfl, rfl⟩
  case inr.inl => exact .inl ⟨rfl, rfl⟩
  case inr.inr =>
    have hexec : SameTableOrAppend { appendByte b s with caller := .delivery } u := exec_sameTableOrAppend hu
    exact hexec

/-- A LOOP step evaluates stored rules and never stores one. -/
theorem loopStep_sameTable {s t : State} (h : loopStep s = .next t) : SameTable s t := by
  obtain ⟨_, rfl⟩ | ⟨_, i, u, _, hu, rfl⟩ := loopStep_cases h
  · exact ⟨rfl, rfl⟩
  · have hexec : SameTable { s with caller := .loop } u := exec_loop_sameTable rfl hu
    exact hexec

theorem runEvent_sameTableOrAppend {e : Event} {s t : State} (he : e ≠ .reset) (h : runEvent e s = .next t) :
    SameTableOrAppend s t := by
  cases e with
  | rx b => exact rxStep_sameTableOrAppend h
  | loop => exact .inl (loopStep_sameTable h)
  | ain v => injection h with h; subst h; exact .inl ⟨rfl, rfl⟩
  | sample raw => injection h with h; subst h; exact .inl ⟨rfl, rfl⟩
  | gpioPin g => injection h with h; subst h; exact .inl ⟨rfl, rfl⟩
  | reset => exact absurd rfl he

theorem runEvent_reset_rtCount {s t : State} (h : runEvent .reset s = .next t) : t.rtCount = 0 := by
  injection h with h
  subst h
  rfl

/-- Taking the next move leaves the table alone. -/
theorem nextEvent_sameTable {s s' : State} {e : Event} (h : nextEvent s = (e, s')) : SameTable s s' := by
  obtain ⟨l, d, hs⟩ := nextEvent_snd s
  rw [h] at hs
  subst hs
  exact ⟨rfl, rfl⟩

/-- Settles O47: a step takes the next move, which leaves the table alone, and runs it; a move other than a reset keeps
the table or appends one rule behind the stored ones, and a reset empties it. -/
theorem storedRulesAreImmutable : Obligations.StoredRulesAreImmutable := by
  intro s s' t e hnext hstep
  rw [step_of_nextEvent hnext] at hstep
  have hs' : SameTable s s' := nextEvent_sameTable hnext
  constructor
  · intro he
    have ht : SameTableOrAppend s' t := runEvent_sameTableOrAppend he hstep
    refine ⟨hs'.rtCount_eq ▸ ht.rtCount_cases, fun k hk => ?_⟩
    calc ruleAt t k = ruleAt s' k := ht.ruleAt_eq (hs'.rtCount_eq.symm ▸ hk)
      _ = ruleAt s k := hs'.ruleAt_eq k
  · rintro rfl
    exact runEvent_reset_rtCount hstep

end Sys2Proof.Machine

/-! PROOFS. The boolean quantisation of an operand byte (30_encoding.md R87). -/

namespace Sys2Proof.Machine

@[simp] theorem quant_eq_true_iff (v : Byte) : quant v = true ↔ v ≠ 0x00 := decide_eq_true_iff

/-- Settles O7: the model's test is `v ≠ 0x00`, and a byte differs from 0x00 exactly when its unsigned value does from 0. -/
theorem quantIsOneExactlyForNonzero : Obligations.QuantIsOneExactlyForNonzero := by
  intro v
  have hpos : v ≠ 0x00 ↔ 0 < v.toNat := BitVec.toNat_ne.trans Nat.pos_iff_ne_zero.symm
  exact ⟨quant_eq_true_iff v, (quant_eq_true_iff v).trans hpos⟩

end Sys2Proof.Machine

/-! PROOFS. The framer: what a buffer reset does to the buffer (40_assembler.md R116), and what a received byte that finds
room does (R114, R115). -/

namespace Sys2Proof.Machine

/-- Every byte of a zeroed buffer is 0x00, beyond the last index too. -/
@[simp] theorem byteAt_replicate_zero (k : Nat) :
    byteAt (Vector.replicate params.maxFrameLen 0x00) k = 0x00 := by
  rw [byteAt, Vector.getElem?_replicate]
  split <;> rfl

/-- Settles O32: the reset writes the two fields that the reset state gives the buffer, and its bytes are all 0x00. -/
theorem bufResetTouchesOnlyTheBuffer : Obligations.BufResetTouchesOnlyTheBuffer := by
  intro s
  exact ⟨rfl, byteAt_replicate_zero, rfl⟩

/-- Settles O33: the step is the RX step of the byte, whose two outcomes with room in the buffer are `rxStep_complete` and
`rxStep_pending`. -/
theorem receivedByteRunsCompletedCommand : Obligations.ReceivedByteRunsCompletedCommand := by
  intro s s' b hnext hroom
  have hstep : step s = rxStep b s' := step_of_nextEvent hnext
  constructor
  · intro i hcomplete
    exact hstep.trans (rxStep_complete hroom hcomplete)
  · intro e hpending
    exact hstep.trans (rxStep_pending hroom hpending)

end Sys2Proof.Machine

/-! PROOFS. What a LOOP step does on a stored rule (44_rule_table_control_loop.md R194): it evaluates the rule's condition,
issues at most one read, and raises the signal if the condition holds. -/

namespace Sys2Proof.Machine

/-- The state after an evaluation in `s` that recorded `e` and matched if `isMatch`. -/
def evaluated (isMatch : Bool) (e : Happening) (s : State) : State :=
  if isMatch then writeDigital .sig true (record e s) else record e s

theorem evaluated_sig (m : Bool) (e : Happening) (s : State) : (evaluated m e s).sig = (s.sig || m) := by
  cases m <;> simp [evaluated]

theorem raiseIf_evaluated (m : Option Int → Bool) (reg thr : Byte) (s : State) :
    ∃ e, e.isWrite = false ∧ raiseIf m reg thr s = evaluated (m (compareRegister reg thr s).1) e s := by
  obtain ⟨e, hw, he⟩ := compareRegister_snd reg thr s
  exact ⟨e, hw, by simp only [raiseIf, he, evaluated]⟩

/-- A stored rule decodes to a command that, in eval mode, evaluates exactly the rule's condition. -/
theorem exec_storedRule {r : Rule} {s : State} (hop : r.op = 0x03 ∨ r.op = 0x04) (hc : s.caller = .loop) :
    ∃ i e, decodeFrame r.frame 4 = .ok i ∧ e.isWrite = false ∧ exec i s = .next (evaluated (ruleHolds r s) e s) := by
  obtain ⟨op, reg, thr⟩ := r
  obtain rfl | rfl : op = 0x03 ∨ op = 0x04 := hop
  · obtain ⟨e, hw, he⟩ := raiseIf_evaluated matchesEq reg thr s
    exact ⟨_, e, decodeFrame_rule_rifeq rfl, hw, by
      rw [execRifeq_loop hc, he, matchesEq_compareRegister]⟩
  · obtain ⟨e, hw, he⟩ := raiseIf_evaluated matchesLt reg thr s
    exact ⟨_, e, decodeFrame_rule_riflt rfl, hw, by
      rw [execRiflt_loop hc, he, matchesLt_compareRegister]⟩

theorem loopStep_storedRule {s : State} (hshape : TableShape s) (hl : s.loopIdx < s.rtCount) :
    ∃ e, e.isWrite = false ∧ loopStep s =
      .next (advanceLoop (evaluated (ruleHolds (ruleAt s s.loopIdx) s) e { s with caller := .loop })) := by
  obtain ⟨_, _, hops⟩ := hshape
  obtain ⟨i, e, hdecode, hw, hexec⟩ := exec_storedRule (s := { s with caller := .loop }) (hops _ hl) rfl
  refine ⟨e, hw, ?_⟩
  rw [loopStep_evaluate hl hdecode, hexec]
  rfl

/-- An evaluation leaves the signal high exactly if it was high or the rule's condition holds. -/
theorem loopStep_storedRule_sig {s : State} (hshape : TableShape s) (hl : s.loopIdx < s.rtCount) :
    ∃ t, loopStep s = .next t ∧ t.sig = (s.sig || ruleHolds (ruleAt s s.loopIdx) s) := by
  obtain ⟨e, _, hstep⟩ := loopStep_storedRule hshape hl
  exact ⟨_, hstep, evaluated_sig _ _ _⟩

end Sys2Proof.Machine

/-! PROOFS. The duty of a PWM register (41_dispatch_immediate.md R130): what each operation of the machine does to it. Both
registers have one argument, made once for a `PwmReg`. -/

namespace Sys2Proof.Machine

/-- The id by which a `reg` operand names the PWM register (20_memory.md R57). -/
def PwmReg.idByte : PwmReg → Byte
  | .m1pwm => 0x01
  | .m2pwm => 0x02

/-- The register's duty in a state (10_state.md R32). -/
def PwmReg.duty : PwmReg → State → Byte
  | .m1pwm, s => s.pwm1
  | .m2pwm, s => s.pwm2

@[simp] theorem duty_record (r : PwmReg) (e : Happening) (s : State) : r.duty (record e s) = r.duty s := by
  cases r <;> rfl

@[simp] theorem duty_absorb (r : PwmReg) (c : Absorbed) (s : State) : r.duty (absorb c s) = r.duty s := by
  cases r <;> rfl

@[simp] theorem duty_writeDigital (r : PwmReg) (id : BoolReg) (b : Bit) (s : State) :
    r.duty (writeDigital id b s) = r.duty s := by
  cases r <;> simp [PwmReg.duty]

@[simp] theorem duty_configureDirection (r : PwmReg) (id v : Byte) (s : State) :
    r.duty (configureDirection id v s) = r.duty s := by
  cases r <;> simp [PwmReg.duty]

@[simp] theorem duty_bufReset (r : PwmReg) (s : State) : r.duty (bufReset s) = r.duty s := by
  cases r <;> rfl

@[simp] theorem duty_appendByte (r : PwmReg) (b : Byte) (s : State) : r.duty (appendByte b s) = r.duty s := by
  cases r <;> rfl

@[simp] theorem duty_setCaller (r : PwmReg) (c : Agent) (s : State) : r.duty { s with caller := c } = r.duty s := by
  cases r <;> rfl

@[simp] theorem duty_advanceLoop (r : PwmReg) (s : State) : r.duty (advanceLoop s) = r.duty s := by
  cases r <;> rfl

@[simp] theorem duty_evaluated (r : PwmReg) (m : Bool) (e : Happening) (s : State) :
    r.duty (evaluated m e s) = r.duty s := by
  cases m <;> simp [evaluated]

@[simp] theorem duty_raiseIf (r : PwmReg) (m : Option Int → Bool) (reg thr : Byte) (s : State) :
    r.duty (raiseIf m reg thr s) = r.duty s := by
  obtain ⟨e, _, he⟩ := raiseIf_evaluated m reg thr s
  rw [he, duty_evaluated]

@[simp] theorem duty_rtAppend (r : PwmReg) (rule : Rule) (s : State) :
    r.duty (rtAppend rule s).2 = r.duty s := by
  by_cases hroom : s.rtCount < params.ruleCapacity
  · rw [rtAppend_room _ hroom]
    cases r <;> rfl
  · rw [rtAppend_full _ hroom, duty_absorb]

theorem duty_regWrite_self (r : PwmReg) (v : Byte) (s : State) : r.duty (regWrite r.idByte v s) = v := by
  cases r <;> rfl

theorem regOf_eq_m1pwm {id : Byte} : regOf id = some .m1pwm ↔ id = 0x01 := by revert id; decide

theorem regOf_eq_m2pwm {id : Byte} : regOf id = some .m2pwm ↔ id = 0x02 := by revert id; decide

theorem duty_regWrite_other {r : PwmReg} {id : Byte} (hid : id ≠ r.idByte) (v : Byte) (s : State) :
    r.duty (regWrite id v s) = r.duty s := by
  rw [regWrite]
  split
  case h_2 h =>
    cases r with
    | m1pwm => exact absurd (regOf_eq_m1pwm.1 h) hid
    | m2pwm => rfl
  case h_3 h =>
    cases r with
    | m1pwm => rfl
    | m2pwm => exact absurd (regOf_eq_m2pwm.1 h) hid
  all_goals simp

/-- A command other than a REGW to the register leaves its duty. -/
theorem exec_duty_cases (r : PwmReg) {i : Instr} {s t : State} (h : exec i s = .next t) :
    r.duty t = r.duty s ∨ ∃ v, i = .regw r.idByte v ∧ r.duty t = v := by
  cases i with
  | regw id v =>
    injection h with h
    subst h
    by_cases hid : id = r.idByte
    · subst hid
      exact .inr ⟨v, rfl, duty_regWrite_self r v s⟩
    · exact .inl (duty_regWrite_other hid v s)
  | clrh => injection h with h; subst h; exact .inl (duty_writeDigital ..)
  | mode id v => injection h with h; subst h; exact .inl (duty_configureDirection ..)
  | unk op => injection h with h; subst h; exact .inl (duty_absorb ..)
  | rifeq id thr =>
    left
    cases hc : s.caller with
    | delivery => rw [execRifeq_delivery hc] at h; injection h with h; rw [← h, duty_rtAppend]
    | loop => rw [execRifeq_loop hc] at h; injection h with h; rw [← h, duty_raiseIf]
  | riflt id thr =>
    left
    cases hc : s.caller with
    | delivery => rw [execRiflt_delivery hc] at h; injection h with h; rw [← h, duty_rtAppend]
    | loop => rw [execRiflt_loop hc] at h; injection h with h; rw [← h, duty_raiseIf]

/-- The RX step of byte `b` in `s` finds room and completes the command `i`. -/
def RxCompletes (b : Byte) (s : State) (i : Instr) : Prop :=
  s.len < 10 ∧ decodeFrame (s.buf.setIfInBounds s.len b) (s.len + 1) = .ok i

theorem rxStep_regw_duty {r : PwmReg} {b v : Byte} {s : State} (h : RxCompletes b s (.regw r.idByte v)) :
    ∃ t, rxStep b s = .next t ∧ r.duty t = v := by
  obtain ⟨hroom, hdecode⟩ := h
  refine ⟨_, rxStep_complete hroom hdecode, ?_⟩
  rw [duty_bufReset, duty_regWrite_self]

theorem rxStep_duty_cases (r : PwmReg) {b : Byte} {s t : State} (h : rxStep b s = .next t) :
    r.duty t = r.duty s ∨ ∃ v, RxCompletes b s (.regw r.idByte v) ∧ r.duty t = v := by
  obtain ⟨_, rfl⟩ | ⟨_, _, _, rfl⟩ | ⟨hroom, i, u, hdecode, hu, rfl⟩ := rxStep_cases h
  · simp
  · simp
  · obtain hsame | ⟨v, rfl, hv⟩ := exec_duty_cases r hu
    · left
      calc r.duty (bufReset u) = r.duty u := duty_bufReset r u
        _ = r.duty { appendByte b s with caller := .delivery } := hsame
        _ = r.duty (appendByte b s) := duty_setCaller r .delivery (appendByte b s)
        _ = r.duty s := duty_appendByte r b s
    · exact .inr ⟨v, ⟨hroom, hdecode⟩, by rw [duty_bufReset, hv]⟩

/-- A LOOP step over stored rules only wraps or evaluates, so it writes no duty. -/
theorem loopStep_duty (r : PwmReg) {s t : State} (hshape : TableShape s) (h : loopStep s = .next t) :
    r.duty t = r.duty s := by
  by_cases hl : s.loopIdx < s.rtCount
  · obtain ⟨e, _, hstep⟩ := loopStep_storedRule hshape hl
    cases h.symm.trans hstep
    simp
  · cases h.symm.trans (loopStep_wrap (Nat.le_of_not_lt hl))
    cases r <;> rfl

theorem runEvent_duty_cases (r : PwmReg) {e : Event} {s t : State} (hshape : TableShape s) (he : e ≠ .reset)
    (h : runEvent e s = .next t) :
    r.duty t = r.duty s ∨ ∃ b v, e = .rx b ∧ RxCompletes b s (.regw r.idByte v) ∧ r.duty t = v := by
  cases e with
  | rx b => exact (rxStep_duty_cases r h).imp_right fun ⟨v, hcompletes, hv⟩ => ⟨b, v, rfl, hcompletes, hv⟩
  | loop => exact .inl (loopStep_duty r hshape h)
  | ain v => injection h with h; subst h; cases r <;> exact .inl rfl
  | sample raw => injection h with h; subst h; cases r <;> exact .inl rfl
  | gpioPin g => injection h with h; subst h; cases r <;> exact .inl rfl
  | reset => exact absurd rfl he

theorem nextEvent_duty (r : PwmReg) {s s' : State} {e : Event} (h : nextEvent s = (e, s')) : r.duty s' = r.duty s := by
  obtain ⟨l, d, hs⟩ := nextEvent_snd s
  rw [h] at hs
  subst hs
  cases r <;> rfl

/-- A step that changes a duty is the RX step that completes a REGW to the register, and leaves its operand there. -/
theorem step_changes_duty (r : PwmReg) {s s' t : State} {e : Event} (hnext : nextEvent s = (e, s'))
    (hshape : TableShape s') (hstep : step s = .next t) (he : e ≠ .reset) (hne : r.duty t ≠ r.duty s) :
    ∃ b v, e = .rx b ∧ s'.len < 10 ∧
      decodeFrame (s'.buf.setIfInBounds s'.len b) (s'.len + 1) = .ok (.regw r.idByte v) ∧ r.duty t = v := by
  rw [step_of_nextEvent hnext] at hstep
  rw [← nextEvent_duty r hnext] at hne
  obtain ⟨b, v, hb, ⟨hroom, hdecode⟩, hv⟩ := (runEvent_duty_cases r hshape he hstep).resolve_left hne
  exact ⟨b, v, hb, hroom, hdecode, hv⟩

/-- Settles O49: the completing RX step leaves the operand (`rxStep_regw_duty`), and a duty changes by nothing else
(`step_changes_duty`). -/
theorem pwmDutyIsTheLastRegw : Obligations.PwmDutyIsTheLastRegw := by
  constructor
  · intro s s' b v hnext hroom
    have hstep : step s = rxStep b s' := step_of_nextEvent hnext
    rw [hstep]
    exact ⟨fun hdecode => rxStep_regw_duty (r := .m1pwm) ⟨hroom, hdecode⟩,
      fun hdecode => rxStep_regw_duty (r := .m2pwm) ⟨hroom, hdecode⟩⟩
  · intro s s' t e hnext hshape hstep he
    exact ⟨step_changes_duty .m1pwm hnext hshape hstep he, step_changes_duty .m2pwm hnext hshape hstep he⟩

end Sys2Proof.Machine

/-! PROOFS. Dispatch of short frames and of the two-byte commands CLRH and UNK (41_dispatch_immediate.md R121, R124,
R126). -/

namespace Sys2Proof.Machine

/-- Settles O9: below length 2 the decoder answers pending, and a pending dispatch has no effect. -/
theorem shortFrameNeverDispatches : Obligations.ShortFrameNeverDispatches := by
  intro f n c s hn
  exact dispatch_error (decodeFrame_short hn) c s

/-- The byte appended at length 1 is the frame's opcode byte. -/
theorem byteAt_setIfInBounds_opcode (f : Frame) (b : Byte) : byteAt (f.setIfInBounds 1 b) 1 = b := by
  have hbound : 1 < params.maxFrameLen := by decide
  simp [byteAt, hbound]

/-- An opcode byte that is a whole command by itself runs in its own RX step from length 1, on an idle framer. -/
theorem rxStep_opcode_completes {op : Byte} {i : Instr} {s : State} (hl : s.len = 1)
    (hdecode : ∀ f, byteAt f 1 = op → decodeFrame f 2 = .ok i) :
    rxStep op s = exec i { s with buf := frameOf [], len := 1, caller := .delivery } := by
  have hcomplete : decodeFrame (s.buf.setIfInBounds s.len op) (s.len + 1) = .ok i := by
    rw [hl]
    exact hdecode _ (byteAt_setIfInBounds_opcode _ _)
  rw [rxStep_complete (by omega) hcomplete, exec_bufReset, bufReset, frameOf_nil]
  rfl

/-- Settles O13: the decoder names CLRH at every length from 2 on, its one write drives the signal low, and a stored rule
whose condition reads neither the signal nor the history raises it again (`loopStep_storedRule_sig`). -/
theorem clrhDrivesSignalLow : Obligations.ClrhDrivesSignalLow := by
  refine ⟨fun s => rfl, fun s => rfl, ?dispatched, ?received, ?raisedAgain⟩
  case dispatched =>
    intro f n c s hn hop
    exact dispatch_ok (decodeFrame_clrh hop hn) c s
  case received =>
    intro s hl
    exact rxStep_opcode_completes hl fun _ hop => decodeFrame_clrh hop (Nat.le_refl 2)
  case raisedAgain =>
    intro s hshape hl hholds
    obtain ⟨u, hu, hsig⟩ := loopStep_storedRule_sig (s := writeDigital .sig false s) hshape hl
    have hcondition : u.sig = (false || ruleHolds (ruleAt s s.loopIdx) s) := hsig
    exact ⟨_, u, rfl, rfl, hu, by rw [hcondition, hholds, Bool.false_or]⟩

theorem isDefinedOpcode_eq_false {op : Byte} (h1 : op ≠ 0x01) (h2 : op ≠ 0x02) (h3 : op ≠ 0x03) (h4 : op ≠ 0x04)
    (h5 : op ≠ 0x05) : isDefinedOpcode op = false :=
  decide_eq_false (not_or.2 ⟨h1, not_or.2 ⟨h2, not_or.2 ⟨h3, not_or.2 ⟨h4, h5⟩⟩⟩⟩)

/-- Settles O14: the decoder names UNK at every length from 2 on, and UNK does nothing but absorb the condition. -/
theorem unknownOpcodeIsConsumedAlone : Obligations.UnknownOpcodeIsConsumedAlone := by
  refine ⟨fun op s => rfl, fun op h1 h2 h3 h4 h5 => ?_⟩
  have hundefined : isDefinedOpcode op = false := isDefinedOpcode_eq_false h1 h2 h3 h4 h5
  have hdecode (f : Frame) (n : Nat) (hn : 2 ≤ n) (hop : byteAt f 1 = op) : decodeFrame f n = .ok (.unk op) := by
    subst hop
    exact decodeFrame_unk hundefined hn
  constructor
  · intro f n c s hn hop
    exact dispatch_ok (hdecode f n hn hop) c s
  · intro s hl
    exact rxStep_opcode_completes hl fun f hop => hdecode f 2 (Nat.le_refl 2) hop

end Sys2Proof.Machine

/-! PROOFS. The conditional commands (42_dispatch_conditional.md): what a comparison answers on each register (R150), that
a register invalid for comparison never matches (R156), and that neither command drives the signal low in either mode
(R155). -/

namespace Sys2Proof.Machine

theorem compareRegister_ain1 (thr : Byte) (s : State) :
    compareRegister 0x05 thr s = (some (difference s.ain.toNat thr), record (.hal (.readAnalog s.ain)) s) := rfl

theorem compareRegister_gpio1 (thr : Byte) (s : State) :
    compareRegister 0x06 thr s =
      (some (difference (bitValue (gpioLevel s)) thr), record (.hal (.readDigital (gpioLevel s))) s) := rfl

theorem compareRegister_invalid {reg : Byte} (h5 : reg ≠ 0x05) (h6 : reg ≠ 0x06) (thr : Byte) (s : State) :
    compareRegister reg thr s = (none, absorb .invalidRegCompare s) := by
  obtain ⟨hreg, _⟩ | ⟨hreg, _⟩ | ⟨_, _, h⟩ := compareRegister_cases reg thr s
  · exact absurd hreg h5
  · exact absurd hreg h6
  · exact h

theorem intCast_bitValue (g : Bit) : (bitValue g : Int) = if g then 1 else 0 := by
  cases g <;> rfl

/-- Settles O25: a comparison is the difference on the two readable registers, and a GPIO-1 level counts as 0 or 1. -/
theorem compareSubtractsTheLiveValue : Obligations.CompareSubtractsTheLiveValue := by
  intro thr s
  refine ⟨compareRegister_ain1 thr s, ?_, fun reg h5 h6 => compareRegister_invalid h5 h6 thr s⟩
  rw [compareRegister_gpio1, difference, intCast_bitValue]
  rfl

/-- A test that fails on Invalid raises nothing on a register invalid for comparison. -/
theorem raiseIf_invalid {m : Option Int → Bool} (hm : m none = false) {reg : Byte} (h5 : reg ≠ 0x05) (h6 : reg ≠ 0x06)
    (thr : Byte) (s : State) : raiseIf m reg thr s = absorb .invalidRegCompare s := by
  simp [raiseIf, compareRegister_invalid h5 h6, hm]

/-- Settles O29: both commands evaluate, and neither `matchesEq` nor `matchesLt` holds on Invalid. -/
theorem invalidRegisterNeverMatches : Obligations.InvalidRegisterNeverMatches := by
  intro reg thr s hc h5 h6
  constructor
  · rw [execRifeq_loop hc, raiseIf_invalid rfl h5 h6]
    rfl
  · rw [execRiflt_loop hc, raiseIf_invalid rfl h5 h6]
    rfl

/-- The conditional command whose stored rule is `⟨op, reg, thr⟩` takes `s` to `t`. -/
def RunsConditional (op reg thr : Byte) (s t : State) : Prop :=
  (op = 0x03 ∧ exec (.rifeq reg thr) s = .next t) ∨ (op = 0x04 ∧ exec (.riflt reg thr) s = .next t)

/-- In store mode the command appends its rule. -/
theorem RunsConditional.eq_rtAppend {op reg thr : Byte} {s t : State} (h : RunsConditional op reg thr s t)
    (hc : s.caller = .delivery) : t = (rtAppend ⟨op, reg, thr⟩ s).2 := by
  obtain ⟨rfl, h⟩ | ⟨rfl, h⟩ := h
  · exact Host.Outcome.next.inj (h.symm.trans (execRifeq_delivery hc reg thr))
  · exact Host.Outcome.next.inj (h.symm.trans (execRiflt_delivery hc reg thr))

/-- In eval mode the command evaluates its own condition. -/
theorem RunsConditional.eq_evaluated {op reg thr : Byte} {s t : State} (h : RunsConditional op reg thr s t)
    (hc : s.caller = .loop) : ∃ e, e.isWrite = false ∧ t = evaluated (ruleHolds ⟨op, reg, thr⟩ s) e s := by
  obtain ⟨rfl, h⟩ | ⟨rfl, h⟩ := h
  · obtain ⟨e, hw, he⟩ := raiseIf_evaluated matchesEq reg thr s
    rw [execRifeq_loop hc, he, matchesEq_compareRegister] at h
    exact ⟨e, hw, (Host.Outcome.next.inj h).symm⟩
  · obtain ⟨e, hw, he⟩ := raiseIf_evaluated matchesLt reg thr s
    rw [execRiflt_loop hc, he, matchesLt_compareRegister] at h
    exact ⟨e, hw, (Host.Outcome.next.inj h).symm⟩

/-- From `s` to `t` no HAL write is issued, and the signal stays as it was. -/
def IssuesNoWrite (s t : State) : Prop :=
  t.sig = s.sig ∧ ∃ new, t.history = new ++ s.history ∧ ∀ e ∈ new, e.isWrite = false

theorem issuesNoWrite_record {e : Happening} (he : e.isWrite = false) (s : State) : IssuesNoWrite s (record e s) :=
  ⟨rfl, [e], rfl, List.forall_mem_singleton.2 he⟩

theorem issuesNoWrite_rtAppend (r : Rule) (s : State) : IssuesNoWrite s (rtAppend r s).2 := by
  by_cases hroom : s.rtCount < params.ruleCapacity
  · rw [rtAppend_room r hroom]
    exact ⟨rfl, [], rfl, List.forall_mem_nil _⟩
  · rw [rtAppend_full r hroom]
    exact issuesNoWrite_record rfl s

/-- A conditional command issues no write, or it evaluates a condition that holds and its one write raises the signal. -/
theorem RunsConditional.cases {op reg thr : Byte} {s t : State} (h : RunsConditional op reg thr s t) :
    IssuesNoWrite s t ∨
    (s.caller = .loop ∧ ruleHolds ⟨op, reg, thr⟩ s = true ∧
      ∃ e, e.isWrite = false ∧ t = writeDigital .sig true (record e s)) := by
  cases hc : s.caller with
  | delivery =>
    rw [h.eq_rtAppend hc]
    exact .inl (issuesNoWrite_rtAppend _ s)
  | loop =>
    obtain ⟨e, hw, rfl⟩ := h.eq_evaluated hc
    cases hholds : ruleHolds ⟨op, reg, thr⟩ s with
    | false => exact .inl (issuesNoWrite_record hw s)
    | true => exact .inr ⟨rfl, rfl, e, hw, rfl⟩

/-- Settles O31: a command that issues no write leaves the signal, and the only write a conditional command issues is a
raise, in eval mode and when its condition holds (`RunsConditional.cases`). -/
theorem conditionalsNeverLowerSignal : Obligations.ConditionalsNeverLowerSignal := by
  intro op reg thr s t h
  obtain ⟨hsig, new, hnew, hw⟩ | ⟨hc, hholds, e, hw, rfl⟩ := RunsConditional.cases h
  case inl =>
    have hlow : .hal (.writeDigital .sig false) ∉ new := fun hmem => Bool.noConfusion (hw _ hmem)
    exact ⟨hsig.trans, new, hnew, hlow, fun _ => ⟨hsig, hw⟩⟩
  case inr =>
    have hlow : .hal (.writeDigital .sig false) ∉ [.hal (.writeDigital .sig true), e] := by
      intro hmem
      obtain rfl : .hal (.writeDigital .sig false) = e := by simpa using hmem
      cases hw
    refine ⟨fun _ => rfl, _, rfl, hlow, ?_⟩
    rintro (hstored | hfalse)
    · cases hc.symm.trans hstored
    · cases hholds.symm.trans hfalse

end Sys2Proof.Machine

/-! PROOFS. Runs of LOOP steps and input changes (44_rule_table_control_loop.md R198): such a move leaves the script and a
table of stored rules as they are, and never lowers the signal. -/

namespace Sys2Proof.Machine

/-- A LOOP step or input change is the LOOP step, or gives the inputs new values and does nothing else. -/
theorem runEvent_loopOrInput_cases {e : Event} {s t : State} (he : isLoopOrInput e = true)
    (h : runEvent e s = .next t) : loopStep s = .next t ∨ ∃ v g, t = { s with ain := v, gpioPin := g } := by
  cases e with
  | rx b => cases he
  | loop => exact .inl h
  | ain v => exact .inr ⟨v, s.gpioPin, (Host.Outcome.next.inj h).symm⟩
  | sample raw => exact .inr ⟨reducedSample raw, s.gpioPin, (Host.Outcome.next.inj h).symm⟩
  | gpioPin g => exact .inr ⟨s.ain, g, (Host.Outcome.next.inj h).symm⟩
  | reset => cases he

theorem loopStep_script {s t : State} (h : loopStep s = .next t) : t.script = s.script := by
  obtain ⟨_, rfl⟩ | ⟨_, i, u, _, hu, rfl⟩ := loopStep_cases h
  · rfl
  · obtain ⟨_, _, _, _, _, _, hscript, _⟩ := exec_frame hu
    exact hscript

/-- The loop position advances only from below the count, and otherwise wraps to 0. -/
theorem loopStep_loopIdx_le {s t : State} (h : loopStep s = .next t) : t.loopIdx ≤ t.rtCount := by
  rw [(loopStep_sameTable h).rtCount_eq]
  obtain ⟨_, rfl⟩ | ⟨hl, i, u, _, hu, rfl⟩ := loopStep_cases h
  · exact Nat.zero_le _
  · obtain ⟨_, _, hidx, _⟩ := exec_frame hu
    have hadvance : (advanceLoop u).loopIdx = s.loopIdx + 1 := congrArg (· + 1) hidx
    exact hadvance ▸ hl

theorem loopStep_tableShape {s t : State} (hshape : TableShape s) (h : loopStep s = .next t) : TableShape t := by
  obtain ⟨_, hcapacity, hops⟩ := hshape
  have htable : SameTable s t := loopStep_sameTable h
  refine ⟨loopStep_loopIdx_le h, htable.rtCount_eq ▸ hcapacity, fun k hk => ?_⟩
  rw [htable.ruleAt_eq]
  exact hops k (htable.rtCount_eq ▸ hk)

/-- A LOOP step over stored rules wraps, or ORs the condition of one rule into the signal. -/
theorem loopStep_keeps_sig_high {s t : State} (hshape : TableShape s) (h : loopStep s = .next t)
    (hsig : s.sig = true) : t.sig = true := by
  by_cases hl : s.loopIdx < s.rtCount
  · obtain ⟨u, hu, hor⟩ := loopStep_storedRule_sig hshape hl
    cases h.symm.trans hu
    rw [hor, hsig, Bool.true_or]
  · cases h.symm.trans (loopStep_wrap (Nat.le_of_not_lt hl))
    exact hsig

/-- The table holds stored rules, the script is `l`, and the signal is high: what a run of LOOP steps and input changes
keeps, `l` being what is left of its script. -/
structure HighWithScript (l : List Event) (s : State) : Prop where
  table : TableShape s
  script : s.script = l
  sig : s.sig = true

theorem runEvent_keeps_highWithScript {e : Event} {l : List Event} {s t : State} (he : isLoopOrInput e = true)
    (hs : HighWithScript l s) (h : runEvent e s = .next t) : HighWithScript l t := by
  obtain ⟨hshape, hscript, hsig⟩ := hs
  obtain hloop | ⟨v, g, rfl⟩ := runEvent_loopOrInput_cases he h
  · exact ⟨loopStep_tableShape hshape hloop, (loopStep_script hloop).trans hscript,
      loopStep_keeps_sig_high hshape hloop hsig⟩
  · exact ⟨hshape, hscript, hsig⟩

/-- One step takes the first event of the script and runs it. -/
theorem step_keeps_highWithScript {e : Event} {l : List Event} {s t : State} (he : isLoopOrInput e = true)
    (hs : HighWithScript (e :: l) s) (h : step s = .next t) : HighWithScript l t := by
  obtain ⟨hshape, hscript, hsig⟩ := hs
  rw [step_of_nextEvent (nextEvent_cons hscript)] at h
  have htaken : HighWithScript l { s with script := l } := ⟨hshape, rfl, hsig⟩
  exact runEvent_keeps_highWithScript he htaken h

theorem runSteps_keeps_highWithScript {es rest : List Event} {s t : State} (hes : ∀ e ∈ es, isLoopOrInput e = true)
    (hs : HighWithScript (es ++ rest) s) (h : runSteps es.length s = .next t) : HighWithScript rest t := by
  induction es generalizing s with
  | nil =>
    cases (runSteps_zero s).symm.trans h
    exact hs
  | cons e es ih =>
    obtain ⟨he, hes⟩ := List.forall_mem_cons.1 hes
    obtain ⟨u, hu⟩ := step_next s
    rw [List.length_cons, runSteps_succ hu] at h
    exact ih hes (step_keeps_highWithScript he hs hu) h

/-- Settles O41, by induction on the events of the run: each step keeps the signal high over a table of stored rules. -/
theorem loopNeverLowersSignal : Obligations.LoopNeverLowersSignal := by
  intro es rest s t hshape hes hscript hrun hsig
  exact (runSteps_keeps_highWithScript hes ⟨hshape, hscript, hsig⟩ hrun).sig

end Sys2Proof.Machine

/-! PROOFS. Encoding and decoding (30_encoding.md): the round trip both ways, what the opcode byte alone decides (R84, R92,
R98), and the operands taken whole (R85). -/

namespace Sys2Proof.Machine

/-- The statement made per instruction, for all of them. -/
theorem encodedLength (i : Instr) : Laws.EncodedLength.Statement i := by
  cases i with
  | regw reg val => exact Laws.EncodedLength.regw reg val
  | clrh => exact Laws.EncodedLength.clrh
  | rifeq reg thr => exact Laws.EncodedLength.rifeq reg thr
  | riflt reg thr => exact Laws.EncodedLength.riflt reg thr
  | mode reg val => exact Laws.EncodedLength.mode reg val
  | unk op => exact Laws.EncodedLength.unk op

theorem encode_length (i : Instr) : (encode i).length = i.frameLen - 1 :=
  Nat.eq_sub_of_add_eq (encodedLength i).1

theorem frameLen_eq_encode_length (i : Instr) : i.frameLen = (encode i).length + 1 := (encodedLength i).1.symm

/-- A frame that opens with a well-formed command's bytes is that command, at every length that holds them all. -/
theorem decodeFrame_encode {i : Instr} (hwf : i.wf = true) (rest : List Byte) {n : Nat} (hn : i.frameLen ≤ n) :
    decodeFrame (frameOf (encode i ++ rest)) n = .ok i := by
  cases i with
  | regw reg val => rw [decodeFrame_regw (byteAt_frameOf_opcode _) hn]; simp [encode]
  | clrh => exact decodeFrame_clrh (byteAt_frameOf_opcode _) hn
  | rifeq reg thr => rw [decodeFrame_rifeq (byteAt_frameOf_opcode _) hn]; simp [encode]
  | riflt reg thr => rw [decodeFrame_riflt (byteAt_frameOf_opcode _) hn]; simp [encode]
  | mode reg val => rw [decodeFrame_mode (byteAt_frameOf_opcode _) hn]; simp [encode]
  | unk op =>
    have hop : byteAt (frameOf (encode (.unk op) ++ rest)) 1 = op := byteAt_frameOf_opcode _
    have hundefined : isDefinedOpcode op = false := by simpa [Instr.wf] using hwf
    rw [decodeFrame_unk (hop.symm ▸ hundefined) hn, hop]

/-- A byte string decodes exactly when its frame does, to the same command, and what is left follows that command's
bytes. -/
theorem decode_eq_ok_iff {bytes rest : List Byte} {i : Instr} :
    decode bytes = .ok (i, rest) ↔
      decodeFrame (frameOf bytes) (1 + bytes.length) = .ok i ∧ bytes.drop (i.frameLen - 1) = rest := by
  rw [decode]
  cases decodeFrame (frameOf bytes) (1 + bytes.length) with
  | error e => simp
  | ok j =>
    constructor
    · intro h
      cases h
      exact ⟨rfl, rfl⟩
    · rintro ⟨h, rfl⟩
      cases h
      rfl

/-- Settles O1: the frame of the bytes is the command (`decodeFrame_encode`), and dropping as many bytes as the command
has leaves the rest. -/
theorem encodedCommandDecodesToItself : Obligations.EncodedCommandDecodesToItself := by
  intro i rest hwf
  have hlen : i.frameLen ≤ 1 + (encode i ++ rest).length := by
    rw [frameLen_eq_encode_length, List.length_append]
    omega
  refine decode_eq_ok_iff.2 ⟨decodeFrame_encode hwf rest hlen, ?_⟩
  rw [← encode_length, List.drop_left]

/-- A frame that decodes holds the bytes of its command, from index 1 on. -/
theorem encode_eq_take {bytes : List Byte} {i : Instr}
    (h : decodeFrame (frameOf bytes) (1 + bytes.length) = .ok i) : encode i = bytes.take (i.frameLen - 1) := by
  have four (hn : 4 ≤ 1 + bytes.length) :
      bytes.take 3 = [byteAt (frameOf bytes) 1, byteAt (frameOf bytes) 2, byteAt (frameOf bytes) 3] := by
    match bytes, hn with
    | a :: b :: c :: tail, _ => simp
  have two (hn : 2 ≤ 1 + bytes.length) : bytes.take 1 = [byteAt (frameOf bytes) 1] := by
    match bytes, hn with
    | a :: tail, _ => simp
  obtain ⟨hop, hn, rfl⟩ | ⟨hop, hn, rfl⟩ | ⟨hop, hn, rfl⟩ | ⟨hop, hn, rfl⟩ | ⟨hop, hn, rfl⟩ | ⟨_, hn, rfl⟩ :=
    decodeFrame_cases h
  · exact ((four hn).trans (by rw [hop]; rfl)).symm
  · exact ((two hn).trans (by rw [hop]; rfl)).symm
  · exact ((four hn).trans (by rw [hop]; rfl)).symm
  · exact ((four hn).trans (by rw [hop]; rfl)).symm
  · exact ((four hn).trans (by rw [hop]; rfl)).symm
  · exact (two hn).symm

/-- Settles O2: a decoded command is well formed, its bytes are the first ones of the string (`encode_eq_take`), and the
rest is what the decoder leaves. -/
theorem decodedBytesAreItsEncoding : Obligations.DecodedBytesAreItsEncoding := by
  intro bytes rest i h
  obtain ⟨hframe, rfl⟩ := decode_eq_ok_iff.1 h
  refine ⟨decodeFrame_wf hframe, ?_⟩
  rw [encode_eq_take hframe, List.take_append_drop]

theorem decodeFrame_frameLen_le {f : Frame} {n : Nat} {i : Instr} (h : decodeFrame f n = .ok i) : i.frameLen ≤ n := by
  obtain ⟨_, hn, rfl⟩ | ⟨_, hn, rfl⟩ | ⟨_, hn, rfl⟩ | ⟨_, hn, rfl⟩ | ⟨_, hn, rfl⟩ | ⟨_, hn, rfl⟩ :=
    decodeFrame_cases h <;> exact hn

/-- A decoded frame is the same command at length 4, the longest a command needs. -/
theorem decodeFrame_at_four {f : Frame} {n : Nat} {i : Instr} (h : decodeFrame f n = .ok i) :
    decodeFrame f 4 = .ok i := by
  obtain ⟨hop, _, rfl⟩ | ⟨hop, _, rfl⟩ | ⟨hop, _, rfl⟩ | ⟨hop, _, rfl⟩ | ⟨hop, _, rfl⟩ | ⟨hop, _, rfl⟩ :=
    decodeFrame_cases h
  · exact decodeFrame_regw hop (Nat.le_refl 4)
  · exact decodeFrame_clrh hop (by decide)
  · exact decodeFrame_rifeq hop (Nat.le_refl 4)
  · exact decodeFrame_riflt hop (Nat.le_refl 4)
  · exact decodeFrame_mode hop (Nat.le_refl 4)
  · exact decodeFrame_unk hop (by decide)

theorem decodeFrame_fourByte_total {f : Frame} {n : Nat} (hop : isFourByteOpcode (byteAt f 1) = true) (hn : 4 ≤ n) :
    ∃ i, decodeFrame f n = .ok i := by
  obtain hop | hop | hop | hop := of_decide_eq_true hop
  · exact ⟨_, decodeFrame_regw hop hn⟩
  · exact ⟨_, decodeFrame_rifeq hop hn⟩
  · exact ⟨_, decodeFrame_riflt hop hn⟩
  · exact ⟨_, decodeFrame_mode hop hn⟩

theorem decodeFrame_twoByte_total {f : Frame} {n : Nat} (hop : isFourByteOpcode (byteAt f 1) = false) (hn : 2 ≤ n) :
    ∃ i, decodeFrame f n = .ok i := by
  obtain hclrh | hunk | hfour := opcode_cases (byteAt f 1)
  · exact ⟨_, decodeFrame_clrh hclrh hn⟩
  · exact ⟨_, decodeFrame_unk hunk hn⟩
  · cases hop.symm.trans hfour

/-- Settles O3: a four-byte opcode pends below 4 and decodes from there on, every other pends below 2 and decodes from
there on, and the length does not choose the command. -/
theorem opcodeAloneFixesFrameLength : Obligations.OpcodeAloneFixesFrameLength := by
  intro f n
  refine ⟨fun hop => ⟨?_, decodeFrame_fourByte_total hop⟩, fun hop => ⟨?_, decodeFrame_twoByte_total hop⟩,
    fun i h => ⟨decodeFrame_at_four h, decodeFrame_frameLen_le h⟩⟩
  · rintro ⟨i, hi⟩
    by_contra hn
    obtain ⟨e, he⟩ := decodeFrame_pending hop (Nat.lt_of_not_le hn)
    cases he.symm.trans hi
  · rintro ⟨i, hi⟩
    by_contra hn
    cases (decodeFrame_short (Nat.lt_of_not_le hn)).symm.trans hi

/-- A decoded command's bytes open with the frame's opcode byte. -/
theorem encode_opcode {f : Frame} {n : Nat} {i : Instr} (h : decodeFrame f n = .ok i) :
    (encode i).getD 0 0x00 = byteAt f 1 := by
  obtain ⟨hop, _, rfl⟩ | ⟨hop, _, rfl⟩ | ⟨hop, _, rfl⟩ | ⟨hop, _, rfl⟩ | ⟨hop, _, rfl⟩ | ⟨_, _, rfl⟩ :=
    decodeFrame_cases h
  case inr.inr.inr.inr.inr => rfl
  all_goals exact hop.symm

/-- Settles O4: the opcode byte of a well-formed command's bytes belongs to exactly the row of its mnemonic
(`encodedLength`), and the frame opens with that byte. -/
theorem tableRowsPartitionTheOpcodes : Obligations.TableRowsPartitionTheOpcodes := by
  intro f i h
  rw [← encode_opcode h]
  exact (encodedLength i).2 (decodeFrame_wf h)

/-- Settles O6: the decoder takes bytes 2 and 3 as they are, and the register map is read off id by id. -/
theorem regOperandIsAWholeByte : Obligations.RegOperandIsAWholeByte :=
  ⟨fun _ _ hn => ⟨fun hop => decodeFrame_regw hop hn, fun hop => decodeFrame_rifeq hop hn,
      fun hop => decodeFrame_riflt hop hn, fun hop => decodeFrame_mode hop hn⟩,
    rfl, rfl, rfl, rfl, rfl, rfl, rfl, rfl, fun _ hid => regOf_none.2 hid⟩

/-- Settles O5: each complete word is the encoding of its command and what follows it, so O1 decodes it. -/
theorem spelledOutWordsDecode : Obligations.SpelledOutWordsDecode :=
  ⟨encodedCommandDecodesToItself (.regw 0x01 0x80) [] rfl, encodedCommandDecodesToItself .clrh [0x02] rfl,
    encodedCommandDecodesToItself (.rifeq 0x05 0x64) [] rfl, encodedCommandDecodesToItself (.riflt 0x06 0x01) [] rfl,
    encodedCommandDecodesToItself (.mode 0x06 0x00) [] rfl,
    encodedCommandDecodesToItself (.unk 0x85) [0x06, 0x00] (by decide), rfl, rfl⟩

/-- Settles O8: the parameter's test is for 0x00. -/
theorem directionCodeZeroIsInput : Obligations.DirectionCodeZeroIsInput := ⟨rfl, fun _ hv => if_neg hv⟩

/-- Settles O10: the decoder answers pending, and a pending dispatch has no effect. -/
theorem fourByteCommandPendsBelowFour : Obligations.FourByteCommandPendsBelowFour := by
  intro f n c s hop hn
  obtain ⟨e, he⟩ := decodeFrame_pending hop hn
  exact dispatch_error he c s

theorem decodeFrame_congr {f g : Frame} (hop : byteAt f 1 = byteAt g 1) (hreg : byteAt f 2 = byteAt g 2)
    (hval : byteAt f 3 = byteAt g 3) (n : Nat) : decodeFrame f n = decodeFrame g n := by
  simp only [decodeFrame, hop, hreg, hval]

/-- Settles O11: a dispatch reads its frame through the decoder, which reads the three bytes. -/
theorem dispatchReadsOnlyOpcodeAndOperands : Obligations.DispatchReadsOnlyOpcodeAndOperands := by
  intro f g n c s hop hreg hval
  simp only [dispatch, decodeFrame_congr hop hreg hval n]

end Sys2Proof.Machine

/-! PROOFS. The invariant of every reachable state (40_assembler.md R119, 44_rule_table_control_loop.md R201,
43_register_bank.md R179): each of its three parts through an RX step, a LOOP step and every other move. -/

namespace Sys2Proof.Machine

/-! ### The framer -/

theorem bufReset_framerIdle (s : State) : FramerIdle (bufReset s) := ⟨rfl, frameOf_nil⟩

/-- A frame that has an opcode byte is pending only if the byte opens a four-byte command. -/
theorem pending_isFourByteOpcode {f : Frame} {n : Nat} {e : Pending} (h : decodeFrame f n = .error e) (hn : 2 ≤ n) :
    isFourByteOpcode (byteAt f 1) = true := by
  by_contra hop
  obtain ⟨i, hi⟩ := decodeFrame_twoByte_total (Bool.eq_false_iff.2 hop) hn
  cases h.symm.trans hi

theorem pending_lt_four {f : Frame} {n : Nat} {e : Pending} (h : decodeFrame f n = .error e) : n < 4 := by
  by_contra hn
  have hn : 4 ≤ n := Nat.le_of_not_lt hn
  obtain ⟨i, hi⟩ := decodeFrame_fourByte_total (pending_isFourByteOpcode h (by omega)) hn
  cases h.symm.trans hi

/-- A byte appended to a shape either leaves a longer shape or makes a frame that is not pending. -/
theorem appendByte_framerShape {b : Byte} {s : State} {e : Pending} (hshape : FramerShape s)
    (hpending : decodeFrame (appendByte b s).buf (s.len + 1) = .error e) : FramerShape (appendByte b s) := by
  have hlt : s.len + 1 < 4 := pending_lt_four hpending
  obtain ⟨hlen, hbuf⟩ | ⟨op, hop, hlen, hbuf⟩ | ⟨op, reg, _, hlen, _⟩ := hshape
  · have hbuf' : (appendByte b s).buf = frameOf [b] := by rw [appendByte_buf, hbuf, hlen]; exact frameOf_append [] b
    have hb : isFourByteOpcode (byteAt (frameOf [b]) 1) = true :=
      hbuf' ▸ pending_isFourByteOpcode hpending (by omega)
    exact .inr (.inl ⟨b, by simpa using hb, congrArg (· + 1) hlen, hbuf'⟩)
  · have hbuf' : (appendByte b s).buf = frameOf [op, b] := by
      rw [appendByte_buf, hbuf, hlen]
      exact frameOf_append [op] b
    exact .inr (.inr ⟨op, b, hop, congrArg (· + 1) hlen, hbuf'⟩)
  · omega

theorem rxStep_framerShape {b : Byte} {s t : State} (hshape : FramerShape s) (h : rxStep b s = .next t) :
    FramerShape t := by
  obtain ⟨_, rfl⟩ | ⟨_, e, hpending, rfl⟩ | ⟨_, i, u, _, _, rfl⟩ := rxStep_cases h
  · exact .inl (bufReset_framerIdle _)
  · exact appendByte_framerShape hshape hpending
  · exact .inl (bufReset_framerIdle _)

theorem SameFramer.framerShape {s t : State} (h : SameFramer s t) (hshape : FramerShape s) : FramerShape t := by
  obtain ⟨hbuf, hlen⟩ := h
  simpa only [FramerShape, FramerIdle, hbuf, hlen] using hshape

theorem loopStep_sameFramer {s t : State} (h : loopStep s = .next t) : SameFramer s t := by
  obtain ⟨_, rfl⟩ | ⟨_, i, u, _, hu, rfl⟩ := loopStep_cases h
  · exact ⟨rfl, rfl⟩
  · obtain ⟨hbuf, hlen, _⟩ := exec_frame hu
    exact ⟨hbuf, hlen⟩

/-! ### The table and the loop position -/

theorem rxStep_loopIdx {b : Byte} {s t : State} (h : rxStep b s = .next t) : t.loopIdx = s.loopIdx := by
  obtain ⟨_, rfl⟩ | ⟨_, _, _, rfl⟩ | ⟨_, i, u, _, hu, rfl⟩ := rxStep_cases h
  · rfl
  · rfl
  · obtain ⟨_, _, hidx, _⟩ := exec_frame hu
    exact hidx

/-- Storing a RIFEQ or RIFLT rule where there is room keeps a table of stored rules. -/
theorem SameTableOrAppend.tableShape {s t : State} (h : SameTableOrAppend s t) (hidx : t.loopIdx = s.loopIdx)
    (hshape : TableShape s) : TableShape t := by
  obtain ⟨hle, hcapacity, hops⟩ := hshape
  obtain hsame | ⟨hroom, hcount, r, hop, hrt⟩ := h
  · refine ⟨by rw [hidx, hsame.rtCount_eq]; exact hle, hsame.rtCount_eq ▸ hcapacity, fun k hk => ?_⟩
    rw [hsame.ruleAt_eq]
    exact hops k (hsame.rtCount_eq ▸ hk)
  · have hroom' : s.rtCount < 10 := hroom
    refine ⟨by omega, by omega, fun k hk => ?_⟩
    rw [ruleAt, hrt]
    obtain hk | rfl : k < s.rtCount ∨ k = s.rtCount := by omega
    · rw [ruleAt_append_lt hk]
      exact hops k hk
    · rw [ruleAt_append_eq hroom]
      exact hop

theorem rxStep_tableShape {b : Byte} {s t : State} (hshape : TableShape s) (h : rxStep b s = .next t) : TableShape t :=
  (rxStep_sameTableOrAppend h).tableShape (rxStep_loopIdx h) hshape

/-! ### The shadow as the fold of the trace -/

/-- The shadow is the fold of the HAL trace. -/
def ShadowIsFold (s : State) : Prop := s.shadow = shadowAfter s.history

theorem rxStep_shadowIsFold {b : Byte} {s t : State} (hs : ShadowIsFold s) (h : rxStep b s = .next t) :
    ShadowIsFold t := by
  obtain ⟨_, rfl⟩ | ⟨_, _, _, rfl⟩ | ⟨_, i, u, _, hu, rfl⟩ := rxStep_cases h
  · exact hs
  · exact hs
  · have hexec : ShadowIsFold u := exec_shadow hu hs
    exact hexec

theorem loopStep_shadowIsFold {s t : State} (hs : ShadowIsFold s) (h : loopStep s = .next t) : ShadowIsFold t := by
  obtain ⟨_, rfl⟩ | ⟨_, i, u, _, hu, rfl⟩ := loopStep_cases h
  · exact hs
  · have hexec : ShadowIsFold u := exec_shadow hu hs
    exact hexec

theorem runEvent_shadowIsFold {e : Event} {s t : State} (hs : ShadowIsFold s) (h : runEvent e s = .next t) :
    ShadowIsFold t := by
  cases e with
  | rx b => exact rxStep_shadowIsFold hs h
  | loop => exact loopStep_shadowIsFold hs h
  | ain v => injection h with h; subst h; exact hs
  | sample raw => injection h with h; subst h; exact hs
  | gpioPin g => injection h with h; subst h; exact hs
  | reset => injection h with h; subst h; rfl

theorem nextEvent_shadowIsFold {s : State} (hs : ShadowIsFold s) : ShadowIsFold (nextEvent s).2 := by
  obtain ⟨l, d, h⟩ := nextEvent_snd s
  rw [h]
  exact hs

/-- Settles O51: the taking of a move leaves the shadow and the trace, every command extends both alike (`exec_shadow`),
and a reset empties the trace. -/
theorem stepKeepsShadowAsFoldOfTrace : Obligations.StepKeepsShadowAsFoldOfTrace := by
  intro s t hs hstep
  exact runEvent_shadowIsFold (nextEvent_shadowIsFold hs) hstep

/-! ### The three together -/

/-- Settles O53: the reset state is idle, its table is empty, and its trace is empty. -/
theorem resetStateHasTheShapes : Obligations.ResetStateHasTheShapes where
  framer := .inl ⟨rfl, frameOf_nil⟩
  table := ⟨Nat.le_refl 0, Nat.zero_le 10, fun _ hk => absurd hk (Nat.not_lt_zero _)⟩
  shadow := rfl

/-- The invariant speaks of neither the inputs nor the outside's moves. -/
theorem Inv.setOutside {s : State} (hs : Inv s) (v : Byte) (g : Bit) (l : List Event) (d : Nat) :
    Inv { s with ain := v, gpioPin := g, script := l, draws := d } := ⟨hs.framer, hs.table, hs.shadow⟩

theorem runEvent_inv {e : Event} {s t : State} (hs : Inv s) (h : runEvent e s = .next t) : Inv t := by
  cases e with
  | rx b => exact ⟨rxStep_framerShape hs.framer h, rxStep_tableShape hs.table h, rxStep_shadowIsFold hs.shadow h⟩
  | loop =>
    exact ⟨(loopStep_sameFramer h).framerShape hs.framer, loopStep_tableShape hs.table h,
      loopStep_shadowIsFold hs.shadow h⟩
  | ain v => injection h with h; subst h; exact hs.setOutside ..
  | sample raw => injection h with h; subst h; exact hs.setOutside ..
  | gpioPin g => injection h with h; subst h; exact hs.setOutside ..
  | reset => injection h with h; subst h; exact resetStateHasTheShapes.setOutside ..

theorem nextEvent_inv {s : State} (hs : Inv s) : Inv (nextEvent s).2 := by
  obtain ⟨l, d, h⟩ := nextEvent_snd s
  rw [h]
  exact hs.setOutside ..

/-- Settles O52: taking the move keeps the invariant, and so does every move (`runEvent_inv`). -/
theorem everyMoveKeepsTheShapes : Obligations.EveryMoveKeepsTheShapes := by
  intro s t hs hstep
  exact runEvent_inv (nextEvent_inv hs) hstep

/-- Settles O54: the reset buffer is zeroed, and the levels are those of the parameter record. -/
theorem resetLeavesTheStatedValues : Obligations.ResetLeavesTheStatedValues :=
  ⟨byteAt_replicate_zero, rfl, rfl, rfl, rfl, rfl, rfl, rfl, rfl, rfl, rfl⟩

/-- Settles O55: the step is the board reset. -/
theorem boardResetRestoresTheResetState : Obligations.BoardResetRestoresTheResetState := fun _ _ => step_of_nextEvent

end Sys2Proof.Machine

/-! PROOFS. The immediate commands (41_dispatch_immediate.md sections 2 to 6): what a register write and a direction change do,
id by id, and their frames. -/

namespace Sys2Proof.Machine

/-- The id by which a `reg` operand names the boolean register (20_memory.md R57). -/
def BoolReg.idByte : BoolReg → Byte
  | .sig => 0x00
  | .m1dir => 0x03
  | .m2dir => 0x04
  | .gpio1 => 0x06

theorem regWrite_boolReg (r : BoolReg) (v : Byte) (s : State) :
    regWrite r.idByte v s = writeDigital r (quant v) s := by
  cases r <;> rfl

theorem regWrite_pwmReg (r : PwmReg) (v : Byte) (s : State) : regWrite r.idByte v s = writePWM r v s := by
  cases r <;> rfl

theorem regWrite_invalid {id : Byte} (hid : 7 ≤ id.toNat) (v : Byte) (s : State) :
    regWrite id v s = absorb .invalidRegWrite s := by
  simp only [regWrite, regOf_none.2 hid]

/-- The id of a register (20_memory.md R57). -/
def RegId.idByte : RegId → Byte
  | .sig => 0x00
  | .m1pwm => 0x01
  | .m2pwm => 0x02
  | .m1dir => 0x03
  | .m2dir => 0x04
  | .ain1 => 0x05
  | .gpio1 => 0x06

theorem regOf_eq_some_iff {id : Byte} {r : RegId} : regOf id = some r ↔ id = r.idByte := by
  cases r <;> revert id <;> decide

/-- A register write is the HAL write of the register the id names, or one absorbed condition. -/
theorem regWrite_idByte_cases (id v : Byte) (s : State) :
    (∃ r : BoolReg, id = r.idByte ∧ regWrite id v s = writeDigital r (quant v) s) ∨
    (∃ r : PwmReg, id = r.idByte ∧ regWrite id v s = writePWM r v s) ∨
    ∃ c, regWrite id v s = absorb c s := by
  rw [regWrite]
  split
  case h_1 h => exact .inl ⟨.sig, regOf_eq_some_iff.1 h, rfl⟩
  case h_2 h => exact .inr (.inl ⟨.m1pwm, regOf_eq_some_iff.1 h, rfl⟩)
  case h_3 h => exact .inr (.inl ⟨.m2pwm, regOf_eq_some_iff.1 h, rfl⟩)
  case h_4 h => exact .inl ⟨.m1dir, regOf_eq_some_iff.1 h, rfl⟩
  case h_5 h => exact .inl ⟨.m2dir, regOf_eq_some_iff.1 h, rfl⟩
  case h_6 => exact .inr (.inr ⟨_, rfl⟩)
  case h_7 h => exact .inl ⟨.gpio1, regOf_eq_some_iff.1 h, rfl⟩
  case h_8 => exact .inr (.inr ⟨_, rfl⟩)

/-- Settles O15: the four boolean registers take the quantised operand by one HAL write (`regWrite_boolReg`). -/
theorem regwQuantisesIntoBooleanRegisters : Obligations.RegwQuantisesIntoBooleanRegisters := by
  intro val s
  have hwrite (r : BoolReg) : exec (.regw r.idByte val) s = .next (writeDigital r (quant val) s) :=
    congrArg Host.Outcome.next (regWrite_boolReg r val s)
  exact ⟨hwrite .sig, hwrite .m1dir, hwrite .m2dir, hwrite .gpio1⟩

/-- Settles O16: the two PWM registers take the operand byte by one HAL write (`regWrite_pwmReg`). -/
theorem regwWritesPwmVerbatim : Obligations.RegwWritesPwmVerbatim := by
  intro val s
  have hwrite (r : PwmReg) : exec (.regw r.idByte val) s = .next (writePWM r val s) :=
    congrArg Host.Outcome.next (regWrite_pwmReg r val s)
  exact ⟨hwrite .m1pwm, hwrite .m2pwm⟩

/-- Settles O17: the write multiplexer absorbs a condition on the input register and on every id from 0x07 on. -/
theorem regwElsewhereWritesNothing : Obligations.RegwElsewhereWritesNothing := by
  intro val s
  exact ⟨rfl, fun reg hreg => congrArg Host.Outcome.next (regWrite_invalid hreg val s)⟩

/-- Settles O18: MODE to the id of GPIO-1 is the one HAL operation `SetDirection`. -/
theorem modeSetsGpioDirection : Obligations.ModeSetsGpioDirection := fun _ _ => rfl

theorem configureDirection_invalid {id : Byte} (hid : 7 ≤ id.toNat) (v : Byte) (s : State) :
    configureDirection id v s = absorb .invalidRegWrite s := by
  simp only [configureDirection, regOf_none.2 hid]

/-- An id up to 0x05 names a register, and not GPIO-1. -/
theorem configureDirection_notConfigurable {id : Byte} (hid : id.toNat ≤ 5) (v : Byte) (s : State) :
    configureDirection id v s = absorb .modeNotConfigurable s := by
  rw [configureDirection]
  split
  case h_1 h =>
    rw [regOf_eq_gpio1.1 h] at hid
    exact absurd hid (by decide)
  case h_8 h =>
    have : 7 ≤ id.toNat := regOf_none.1 h
    omega
  all_goals rfl

/-- Settles O19: the registers up to 0x05 are not direction-configurable, and ids from 0x07 on name none. -/
theorem modeElsewhereConfiguresNothing : Obligations.ModeElsewhereConfiguresNothing := by
  intro reg val s
  exact ⟨fun hreg => congrArg Host.Outcome.next (configureDirection_notConfigurable hreg val s),
    fun hreg => congrArg Host.Outcome.next (configureDirection_invalid hreg val s)⟩

/-- `t` has the buffer, the table, the loop position and the outside of `s`: all but the shadow and the history. -/
def SameButOutputs (s t : State) : Prop :=
  SameFramer s t ∧ SameTable s t ∧ t.loopIdx = s.loopIdx ∧ SameOutside s t

theorem sameButOutputs_record (e : Happening) (s : State) : SameButOutputs s (record e s) := by
  simp [SameButOutputs, SameFramer, SameTable, SameOutside]

theorem sameButOutputs_writeDigital (r : BoolReg) (b : Bit) (s : State) : SameButOutputs s (writeDigital r b s) := by
  simp [SameButOutputs, SameFramer, SameTable, SameOutside]

theorem sameButOutputs_regWrite (id v : Byte) (s : State) : SameButOutputs s (regWrite id v s) := by
  simp [SameButOutputs, SameFramer, SameTable, SameOutside]

theorem sameButOutputs_configureDirection (id v : Byte) (s : State) :
    SameButOutputs s (configureDirection id v s) := by
  simp [SameButOutputs, SameFramer, SameTable, SameOutside]

/-- A register write changes at most the register its id names. -/
theorem regWrite_outputs_frame (id v : Byte) (s : State) :
    (id ≠ 0x00 → (regWrite id v s).sig = s.sig) ∧ (id ≠ 0x01 → (regWrite id v s).pwm1 = s.pwm1) ∧
    (id ≠ 0x02 → (regWrite id v s).pwm2 = s.pwm2) ∧ (id ≠ 0x03 → (regWrite id v s).dir1 = s.dir1) ∧
    (id ≠ 0x04 → (regWrite id v s).dir2 = s.dir2) ∧ (id ≠ 0x06 → (regWrite id v s).gpioOut = s.gpioOut) := by
  obtain ⟨r, rfl, h⟩ | ⟨r, rfl, h⟩ | ⟨c, h⟩ := regWrite_idByte_cases id v s <;> rw [h]
  · cases r <;> simp [BoolReg.idByte]
  · cases r <;> simp [PwmReg.idByte]
  · simp

theorem configureDirection_gpioDir_frame {id : Byte} (hid : id ≠ 0x06) (v : Byte) (s : State) :
    (configureDirection id v s).gpioDir = s.gpioDir := by
  obtain ⟨rfl, _⟩ | ⟨_, c, h⟩ := configureDirection_cases id v s
  · exact absurd rfl hid
  · rw [h, absorb_gpioDir]

/-- Settles O20: each of the four commands is one operation, which leaves all but the outputs (`SameButOutputs`) and, of
the outputs, all but the one it names. -/
theorem immediateCommandsFrame : Obligations.ImmediateCommandsFrame := by
  intro s t
  refine ⟨fun reg val h => ?regw, fun h => ?clrh, fun reg val h => ?mode, fun op h => ?unk⟩ <;> cases h
  case regw =>
    obtain ⟨hframer, htable, hidx, houtside⟩ := sameButOutputs_regWrite reg val s
    exact ⟨hframer, htable, hidx, houtside, regWrite_gpioDir .., regWrite_outputs_frame reg val s⟩
  case clrh =>
    obtain ⟨hframer, htable, hidx, houtside⟩ := sameButOutputs_writeDigital .sig false s
    exact ⟨hframer, htable, hidx, houtside, by simp [SameOutputs]⟩
  case mode =>
    obtain ⟨hframer, htable, hidx, houtside⟩ := sameButOutputs_configureDirection reg val s
    exact ⟨hframer, htable, hidx, houtside, configureDirection_sig .., configureDirection_pwm1 ..,
      configureDirection_pwm2 .., configureDirection_dir1 .., configureDirection_dir2 .., configureDirection_gpioOut ..,
      fun hreg => configureDirection_gpioDir_frame hreg val s⟩
  case unk =>
    obtain ⟨hframer, htable, hidx, houtside⟩ := sameButOutputs_record (.absorbed .unknownOpcode) s
    exact ⟨hframer, htable, hidx, houtside, rfl, by simp [SameOutputs]⟩

/-- Settles O21: the write latches the level and leaves the direction; the direction change leaves the latch. -/
theorem latchedLevelShowsWhenOutputEnabled : Obligations.LatchedLevelShowsWhenOutputEnabled := by
  intro val code s hcode
  refine ⟨writeDigital .gpio1 (quant val) s, setDirection (params.dirDecode code) (writeDigital .gpio1 (quant val) s),
    rfl, rfl, fun hinput => ?_, ?_⟩
  · simp [padDriven, hinput]
  · simp [padDriven, hcode, quant]

/-- Settles O28: the read-back parameter is the latch. -/
theorem gpioReadsPinOrItsOwnOutput : Obligations.GpioReadsPinOrItsOwnOutput := by
  intro s
  constructor <;> intro hdir <;> rw [gpioLevel, hdir]
  rfl

end Sys2Proof.Machine

/-! PROOFS. The conditional commands in both modes (42_dispatch_conditional.md sections 2 to 4, 44_rule_table_control_loop.md
section 1): the append, the evaluation with the HAL operations it issues, and the frame of each. -/

namespace Sys2Proof.Machine

/-! ### Store mode -/

theorem rt_append_getElem_ne {s : State} {r : Rule} {k : Nat} (hk : k ≠ s.rtCount) :
    (s.rt.setIfInBounds s.rtCount r)[k]? = s.rt[k]? :=
  Vector.getElem?_setIfInBounds_ne hk.symm

/-- Settles O22: in store mode both commands are the append of their rule, which has room or drops it. -/
theorem conditionalCommandsAreStored : Obligations.ConditionalCommandsAreStored := by
  intro reg thr s hc
  rw [execRifeq_delivery hc, execRiflt_delivery hc]
  constructor
  · intro hroom
    rw [rtAppend_room _ hroom, rtAppend_room _ hroom]
    exact ⟨rfl, rfl⟩
  · intro hfull
    rw [rtAppend_full _ (Nat.not_lt.2 hfull), rtAppend_full _ (Nat.not_lt.2 hfull)]
    exact ⟨rfl, rfl⟩

/-- An append leaves all but the entry at the count, the count and the history, and at capacity the table too. -/
theorem rtAppend_frame (r : Rule) (s : State) :
    SameFramer s (rtAppend r s).2 ∧ (rtAppend r s).2.loopIdx = s.loopIdx ∧ SameOutside s (rtAppend r s).2 ∧
    (rtAppend r s).2.sig = s.sig ∧ SameOutputs s (rtAppend r s).2 ∧
    (∀ k : Nat, k ≠ s.rtCount → (rtAppend r s).2.rt[k]? = s.rt[k]?) ∧
    (10 ≤ s.rtCount → SameTable s (rtAppend r s).2) := by
  by_cases hroom : s.rtCount < params.ruleCapacity
  · rw [rtAppend_room r hroom]
    refine ⟨⟨rfl, rfl⟩, rfl, ⟨rfl, rfl, rfl, rfl, rfl⟩, rfl, ⟨rfl, rfl, rfl, rfl, rfl, rfl⟩,
      fun k hk => rt_append_getElem_ne hk, fun hfull => absurd hroom (Nat.not_lt.2 hfull)⟩
  · rw [rtAppend_full r hroom]
    exact ⟨⟨rfl, rfl⟩, rfl, ⟨rfl, rfl, rfl, rfl, rfl⟩, rfl, ⟨rfl, rfl, rfl, rfl, rfl, rfl⟩, fun _ _ => rfl,
      fun _ => ⟨rfl, rfl⟩⟩

/-- Settles O23: in store mode both commands are an append, whose frame is `rtAppend_frame`. -/
theorem conditionalStoreFrame : Obligations.ConditionalStoreFrame := by
  intro reg thr s t hc h
  have happend : ∃ op, t = (rtAppend ⟨op, reg, thr⟩ s).2 := by
    obtain h | h := h
    · exact ⟨0x03, RunsConditional.eq_rtAppend (.inl ⟨rfl, h⟩) hc⟩
    · exact ⟨0x04, RunsConditional.eq_rtAppend (.inr ⟨rfl, h⟩) hc⟩
  obtain ⟨op, rfl⟩ := happend
  exact rtAppend_frame _ s

/-- Settles O24: the two branches of the append. -/
theorem appendStoresAtCountOrDrops : Obligations.AppendStoresAtCountOrDrops := by
  intro r s
  constructor
  · intro hroom
    rw [rtAppend_room r hroom]
    exact ⟨rfl, rfl, ruleAt_append_eq hroom, fun k hk => by rw [ruleAt, rt_append_getElem_ne hk, ruleAt]⟩
  · intro hfull
    exact rtAppend_full r (Nat.not_lt.2 hfull)

/-! ### Eval mode -/

/-- An evaluation writes out as a case distinction on its condition. -/
theorem evaluated_of_iff {m : Bool} {p : Prop} [Decidable p] (hm : m = true ↔ p) (e : Happening) (s : State) :
    evaluated m e s =
      if p then { s with sig := true, history := .hal (.writeDigital .sig true) :: e :: s.history }
      else { s with history := e :: s.history } := by
  rw [evaluated]
  by_cases hp : p
  · rw [if_pos (hm.2 hp), if_pos hp]
    rfl
  · rw [if_neg (fun h => hp (hm.1 h)), if_neg hp]
    rfl

theorem raiseIf_ain1 (m : Option Int → Bool) (thr : Byte) (s : State) :
    raiseIf m 0x05 thr s = evaluated (m (some (difference s.ain.toNat thr))) (.hal (.readAnalog s.ain)) s := rfl

theorem raiseIf_gpio1 (m : Option Int → Bool) (thr : Byte) (s : State) :
    raiseIf m 0x06 thr s =
      evaluated (m (some (difference (bitValue (gpioLevel s)) thr))) (.hal (.readDigital (gpioLevel s))) s := rfl

theorem matchesEq_some_iff {v : Nat} {thr : Byte} : matchesEq (some (difference v thr)) = true ↔ v = thr.toNat :=
  decide_eq_true_iff.trans difference_eq_zero

theorem matchesLt_some_iff {v : Nat} {thr : Byte} : matchesLt (some (difference v thr)) = true ↔ v < thr.toNat :=
  decide_eq_true_iff.trans difference_neg

/-- Settles O26: the evaluation reads the analog byte (`raiseIf_ain1`) and compares it as a number. -/
theorem analogRulesCompareUnsigned : Obligations.AnalogRulesCompareUnsigned := by
  intro thr s hc
  rw [execRifeq_loop hc, execRiflt_loop hc, raiseIf_ain1, raiseIf_ain1]
  exact ⟨congrArg Host.Outcome.next (evaluated_of_iff (matchesEq_some_iff.trans BitVec.toNat_inj) _ s),
    congrArg Host.Outcome.next (evaluated_of_iff matchesLt_some_iff _ s)⟩

theorem bitValue_eq_iff (g : Bit) (thr : Byte) :
    bitValue g = thr.toNat ↔ (thr = 0x00 ∧ g = false) ∨ (thr = 0x01 ∧ g = true) := by
  cases g <;> simp [bitValue, BitVec.toNat_eq, eq_comm]

theorem bitValue_lt_iff (g : Bit) (thr : Byte) :
    bitValue g < thr.toNat ↔ (thr = 0x01 ∧ g = false) ∨ 2 ≤ thr.toNat := by
  cases g <;> simp [bitValue, BitVec.toNat_eq] <;> omega

/-- Settles O27: the evaluation reads the GPIO-1 level (`raiseIf_gpio1`) and compares it as 0 or 1. -/
theorem gpioRulesFollowTheMatchTable : Obligations.GpioRulesFollowTheMatchTable := by
  intro thr s hc
  rw [execRifeq_loop hc, execRiflt_loop hc, raiseIf_gpio1, raiseIf_gpio1]
  exact ⟨congrArg Host.Outcome.next (evaluated_of_iff (matchesEq_some_iff.trans (bitValue_eq_iff _ thr)) _ s),
    congrArg Host.Outcome.next (evaluated_of_iff (matchesLt_some_iff.trans (bitValue_lt_iff _ thr)) _ s)⟩

/-- An evaluation changes the signal and the history alone. -/
theorem evaluated_frame (m : Bool) (e : Happening) (s : State) :
    SameFramer s (evaluated m e s) ∧ SameTable s (evaluated m e s) ∧ (evaluated m e s).loopIdx = s.loopIdx ∧
    SameOutside s (evaluated m e s) ∧ SameOutputs s (evaluated m e s) := by
  cases m <;> simp [evaluated, SameFramer, SameTable, SameOutside, SameOutputs]

/-- Settles O30: in eval mode the command evaluates its own condition, and the signal becomes its old level OR that
condition (`evaluated_sig`). -/
theorem conditionalEvalFrame : Obligations.ConditionalEvalFrame := by
  intro op reg thr s t hc h
  obtain ⟨e, _, rfl⟩ := RunsConditional.eq_evaluated h hc
  obtain ⟨hframer, htable, hidx, houtside, houtputs⟩ := evaluated_frame (ruleHolds ⟨op, reg, thr⟩ s) e s
  refine ⟨hframer, htable, hidx, houtside, houtputs, fun hne => ?_⟩
  rw [evaluated_sig] at hne ⊢
  cases hholds : ruleHolds ⟨op, reg, thr⟩ s with
  | false => rw [hholds, Bool.or_false] at hne; exact absurd rfl hne
  | true => exact ⟨Bool.or_true _, rfl⟩

end Sys2Proof.Machine

/-! PROOFS. The HAL operations one dispatch issues (41_dispatch_immediate.md R128) and those of each agent
(43_register_bank.md R178). -/

namespace Sys2Proof.Machine

theorem isRead_of_isWrite {e : Happening} (h : e.isWrite = true) : e.isRead = false := by
  cases e with
  | absorbed c => cases h
  | hal op => cases op <;> first | rfl | cases h

/-- What one command adds to the history, latest first: nothing, one entry that is a read only in eval mode, or in eval
mode a read and then a write. -/
def OneEffect (c : Agent) (new : List Happening) : Prop :=
  new = [] ∨ (∃ e, new = [e] ∧ (c = .delivery → e.isRead = false)) ∨
  (c = .loop ∧ ∃ w r, new = [w, r] ∧ w.isWrite = true ∧ r.isRead = true)

/-- From `s` to `t` the history grows by `new`, and by nothing if the table does. -/
def Issues (new : List Happening) (s t : State) : Prop :=
  t.history = new ++ s.history ∧ (t.rtCount ≠ s.rtCount → t.rtCount = s.rtCount + 1 ∧ new = [])

theorem issues_record (e : Happening) (s : State) : Issues [e] s (record e s) := ⟨rfl, fun h => absurd rfl h⟩

theorem issues_regWrite (id v : Byte) (s : State) : ∃ e, e.isRead = false ∧ Issues [e] s (regWrite id v s) := by
  obtain ⟨r, b, h⟩ | ⟨r, d, h⟩ | ⟨c, h⟩ := regWrite_cases id v s <;> rw [h]
  · exact ⟨.hal (.writeDigital r b), rfl, by simp [Issues]⟩
  · exact ⟨.hal (.writePWM r d), rfl, by simp [Issues]⟩
  · exact ⟨.absorbed c, rfl, issues_record _ s⟩

theorem issues_configureDirection (id v : Byte) (s : State) :
    ∃ e, e.isRead = false ∧ Issues [e] s (configureDirection id v s) := by
  obtain ⟨_, h⟩ | ⟨_, c, h⟩ := configureDirection_cases id v s <;> rw [h]
  · exact ⟨.hal (.setDirection (params.dirDecode v)), rfl, rfl, fun h => absurd rfl h⟩
  · exact ⟨.absorbed c, rfl, issues_record _ s⟩

/-- An append stores and issues nothing, or drops and absorbs the condition. -/
theorem issues_rtAppend (r : Rule) (s : State) : ∃ new, OneEffect .delivery new ∧ Issues new s (rtAppend r s).2 := by
  by_cases hroom : s.rtCount < params.ruleCapacity
  · rw [rtAppend_room r hroom]
    exact ⟨[], .inl rfl, rfl, fun _ => ⟨rfl, rfl⟩⟩
  · rw [rtAppend_full r hroom]
    exact ⟨_, .inr (.inl ⟨_, rfl, fun _ => rfl⟩), issues_record (.absorbed .ruleTableFull) s⟩

/-- An evaluation whose test fails on Invalid raises the signal only after a read. -/
theorem issues_raiseIf {m : Option Int → Bool} (hm : m none = false) (reg thr : Byte) (s : State) :
    ∃ new, OneEffect .loop new ∧ Issues new s (raiseIf m reg thr s) := by
  have evaluation (b : Bool) {r : Happening} (hr : r.isRead = true) :
      ∃ new, OneEffect .loop new ∧ Issues new s (evaluated b r s) := by
    cases b with
    | false => exact ⟨[r], .inr (.inl ⟨r, rfl, nofun⟩), issues_record r s⟩
    | true =>
      exact ⟨[.hal (.writeDigital .sig true), r], .inr (.inr ⟨rfl, _, _, rfl, rfl, hr⟩), rfl, fun h => absurd rfl h⟩
  by_cases h5 : reg = 0x05
  · subst h5
    rw [raiseIf_ain1]
    exact evaluation _ rfl
  · by_cases h6 : reg = 0x06
    · subst h6
      rw [raiseIf_gpio1]
      exact evaluation _ rfl
    · rw [raiseIf_invalid hm h5 h6]
      exact ⟨_, .inr (.inl ⟨_, rfl, fun _ => rfl⟩), issues_record (.absorbed .invalidRegCompare) s⟩

/-- Every command has one effect. -/
theorem exec_issues {i : Instr} {s t : State} (h : exec i s = .next t) :
    ∃ new, OneEffect s.caller new ∧ Issues new s t := by
  have single (hs : ∃ e, e.isRead = false ∧ Issues [e] s t) : ∃ new, OneEffect s.caller new ∧ Issues new s t := by
    obtain ⟨e, hread, he⟩ := hs
    exact ⟨[e], .inr (.inl ⟨e, rfl, fun _ => hread⟩), he⟩
  cases i with
  | regw reg val => cases h; exact single (issues_regWrite reg val s)
  | clrh => cases h; exact single ⟨_, rfl, rfl, fun h => absurd rfl h⟩
  | mode reg val => cases h; exact single (issues_configureDirection reg val s)
  | unk op => cases h; exact single ⟨_, rfl, issues_record (.absorbed .unknownOpcode) s⟩
  | rifeq reg thr =>
    cases hc : s.caller with
    | delivery => rw [execRifeq_delivery hc] at h; cases h; exact issues_rtAppend _ s
    | loop => rw [execRifeq_loop hc] at h; cases h; exact issues_raiseIf rfl reg thr s
  | riflt reg thr =>
    cases hc : s.caller with
    | delivery => rw [execRiflt_delivery hc] at h; cases h; exact issues_rtAppend _ s
    | loop => rw [execRiflt_loop hc] at h; cases h; exact issues_raiseIf rfl reg thr s

/-- The counts of R128, read off the three forms of an effect. -/
theorem OneEffect.counts {c : Agent} {new : List Happening} (h : OneEffect c new) :
    new.countP Happening.isWrite ≤ 1 ∧ new.countP Happening.isRead ≤ 1 ∧
    (c = .delivery → new.countP Happening.isRead = 0) ∧
    (∀ x y, new = [x, y] → x.isWrite = true ∧ y.isRead = true) ∧ new.length ≤ 2 := by
  obtain rfl | ⟨e, rfl, hread⟩ | ⟨rfl, w, r, rfl, hw, hr⟩ := h
  · simp
  · exact ⟨List.countP_le_length, List.countP_le_length, fun hc => by simp [hread hc], nofun, by simp⟩
  · have hw' : w.isRead = false := isRead_of_isWrite hw
    have hr' : r.isWrite = false := by
      by_contra hr'
      cases hr.symm.trans (isRead_of_isWrite (Bool.eq_true_of_not_eq_false hr'))
    refine ⟨by simp [hw, hr'], by simp [hw', hr], nofun, fun x y hxy => ?_, by simp⟩
    cases hxy
    exact ⟨hw, hr⟩

/-- Settles O12: a pending dispatch does nothing, and a complete one has the one effect of its command. -/
theorem oneDispatchOneEffect : Obligations.OneDispatchOneEffect := by
  intro f n c s t handled h
  obtain ⟨e, _, hr⟩ | ⟨i, u, _, hexec, hr⟩ := dispatch_cases h <;> cases hr
  · exact ⟨[], rfl, by simp⟩
  · obtain ⟨new, heffect, hhistory, htable⟩ := exec_issues hexec
    obtain ⟨hwrites, hreads, hdelivery, horder, hlength⟩ := heffect.counts
    exact ⟨new, hhistory, hwrites, hreads, hdelivery, horder, hlength, htable, nofun⟩

/-- A LOOP step issues a read at most, and then at most a raise of the signal. -/
theorem loopStep_issues {s t : State} (hshape : TableShape s) (h : loopStep s = .next t) :
    ∃ new, t.history = new ++ s.history ∧ SameOutputs s t ∧
      ∀ e ∈ new, e.isWrite = false ∨ e = .hal (.writeDigital .sig true) := by
  by_cases hl : s.loopIdx < s.rtCount
  · obtain ⟨e, hw, hstep⟩ := loopStep_storedRule hshape hl
    cases h.symm.trans hstep
    obtain ⟨_, _, _, _, houtputs⟩ :=
      evaluated_frame (ruleHolds (ruleAt s s.loopIdx) s) e { s with caller := .loop }
    cases hholds : ruleHolds (ruleAt s s.loopIdx) s with
    | false => exact ⟨[e], rfl, hholds ▸ houtputs, by simp [hw]⟩
    | true => exact ⟨[.hal (.writeDigital .sig true), e], rfl, hholds ▸ houtputs, by simp [hw]⟩
  · cases h.symm.trans (loopStep_wrap (Nat.le_of_not_lt hl))
    exact ⟨[], rfl, ⟨rfl, rfl, rfl, rfl, rfl, rfl⟩, by simp⟩

theorem hal_read_of_not_isWrite {op : HalOp} (h : (Happening.hal op).isWrite = false) :
    (∃ v, op = .readAnalog v) ∨ ∃ g, op = .readDigital g := by
  cases op with
  | readAnalog v => exact .inl ⟨v, rfl⟩
  | readDigital g => exact .inr ⟨g, rfl⟩
  | writeDigital r b => cases h
  | writePWM r v => cases h
  | setDirection d => cases h

theorem rxStep_issues_no_read {b : Byte} {s t : State} (h : rxStep b s = .next t) :
    ∃ new, t.history = new ++ s.history ∧ ∀ e ∈ new, e.isRead = false := by
  obtain ⟨_, rfl⟩ | ⟨_, _, _, rfl⟩ | ⟨_, i, u, _, hu, rfl⟩ := rxStep_cases h
  · exact ⟨[.absorbed .frameOverflow], rfl, List.forall_mem_singleton.2 rfl⟩
  · exact ⟨[], rfl, List.forall_mem_nil _⟩
  · obtain ⟨new, heffect, hhistory, _⟩ := exec_issues hu
    obtain ⟨_, _, hreads, _⟩ := heffect.counts
    exact ⟨new, hhistory, fun e he => Bool.eq_false_iff.2 (List.countP_eq_zero.1 (hreads rfl) e he)⟩

/-- Settles O42: the operations of a LOOP step are those of one evaluation, and the command of an RX step runs in store
mode, whose effect holds no read (`OneEffect.counts`). -/
theorem eachAgentIssuesItsOwnOperations : Obligations.EachAgentIssuesItsOwnOperations := by
  refine ⟨fun s t hshape h => ?_, fun b s t h => rxStep_issues_no_read h⟩
  obtain ⟨new, hhistory, houtputs, hnew⟩ := loopStep_issues hshape h
  refine ⟨new, hhistory, houtputs, fun op hop => ?_⟩
  obtain hw | hraise := hnew _ hop
  · exact .inr (hal_read_of_not_isWrite hw)
  · exact .inl (Happening.hal.inj hraise)

end Sys2Proof.Machine

/-! PROOFS. Bytes that arrive one by one (40_assembler.md R111 to R118): a frame under assembly grows by each pending byte,
and the byte that completes a command runs it. -/

namespace Sys2Proof.Machine

/-- `s` with the received bytes `bs` under assembly and the moves `l` to come. -/
def framing (bs : List Byte) (l : List Event) (s : State) : State :=
  { s with buf := frameOf bs, len := bs.length + 1, script := l }

theorem eq_framing {bs : List Byte} {s : State} (hlen : s.len = bs.length + 1) (hbuf : s.buf = frameOf bs) :
    s = framing bs s.script s := by
  cases s
  cases hlen
  cases hbuf
  rfl

theorem FramerIdle.eq_framing {s : State} (h : FramerIdle s) : s = framing [] s.script s := by
  obtain ⟨hlen, hbuf⟩ := h
  exact Machine.eq_framing hlen hbuf

theorem step_cons (e : Event) (l : List Event) (s : State) :
    step { s with script := e :: l } = runEvent e { s with script := l } :=
  step_of_nextEvent (nextEvent_cons (s := { s with script := e :: l }) rfl)

theorem step_framing (bs : List Byte) (b : Byte) (l : List Event) (s : State) :
    step (framing bs (.rx b :: l) s) = rxStep b (framing bs l s) :=
  step_cons (.rx b) l (framing bs l s)

section
variable {bs : List Byte} (hroom : bs.length < 9) {b : Byte}
include hroom

theorem step_framing_pending {e : Pending} (hdecode : decodeFrame (frameOf (bs ++ [b])) (bs.length + 2) = .error e)
    (l : List Event) (s : State) :
    step (framing bs (.rx b :: l) s) = .next (framing (bs ++ [b]) l s) := by
  have hlen : (framing bs l s).len < 10 := Nat.succ_lt_succ hroom
  rw [step_framing, rxStep_pending hlen (by rw [framing, frameOf_append]; exact hdecode), appendByte, framing, framing,
    frameOf_append, List.length_append]
  rfl

theorem step_framing_complete {i : Instr} (hdecode : decodeFrame (frameOf (bs ++ [b])) (bs.length + 2) = .ok i)
    (l : List Event) (s : State) :
    step (framing bs (.rx b :: l) s) = exec i { framing [] l s with caller := .delivery } := by
  have hlen : (framing bs l s).len < 10 := Nat.succ_lt_succ hroom
  rw [step_framing, rxStep_complete hlen (by rw [framing, frameOf_append]; exact hdecode), exec_bufReset, bufReset,
    frameOf_nil]
  rfl

end

/-- Received bytes that open with a four-byte opcode are pending below length 4. -/
theorem decodeFrame_frameOf_pending {op : Byte} (hop : isFourByteOpcode op = true) (bs : List Byte) {n : Nat}
    (hn : n < 4) : ∃ e, decodeFrame (frameOf (op :: bs)) n = .error e :=
  decodeFrame_pending (by simpa using hop) hn

theorem runSteps_one {s t : State} (h : step s = .next t) : runSteps 1 s = .next t := by
  rw [runSteps_succ h, runSteps_zero]

/-- A command of one byte runs in one step from idle. -/
theorem run_oneByte {op : Byte} {i : Instr} (hdecode : decodeFrame (frameOf [op]) 2 = .ok i) (l : List Event)
    (s : State) : runSteps 1 (framing [] (.rx op :: l) s) = exec i { framing [] l s with caller := .delivery } := by
  have hstep := step_framing_complete (bs := []) (by decide) hdecode l s
  obtain ⟨t, ht⟩ := exec_next i { framing [] l s with caller := .delivery }
  rw [ht] at hstep ⊢
  exact runSteps_one hstep

/-- A command of three bytes runs in three steps from idle: the first two leave the frame pending. -/
theorem run_threeBytes {op reg val : Byte} {i : Instr} (hop : isFourByteOpcode op = true)
    (hdecode : decodeFrame (frameOf [op, reg, val]) 4 = .ok i) (l : List Event) (s : State) :
    runSteps 3 (framing [] (.rx op :: .rx reg :: .rx val :: l) s) =
      exec i { framing [] l s with caller := .delivery } := by
  obtain ⟨_, hfirst⟩ := decodeFrame_frameOf_pending hop [] (n := 2) (by decide)
  obtain ⟨_, hsecond⟩ := decodeFrame_frameOf_pending hop [reg] (n := 3) (by decide)
  have hstep := step_framing_complete (bs := [op, reg]) (by decide : 2 < 9) hdecode l s
  obtain ⟨t, ht⟩ := exec_next i { framing [] l s with caller := .delivery }
  rw [ht] at hstep ⊢
  rw [runSteps_succ (step_framing_pending (bs := []) (by decide) hfirst _ s), List.nil_append,
    runSteps_succ (step_framing_pending (bs := [op]) (by decide : 1 < 9) hsecond _ s)]
  exact runSteps_one hstep

/-- A command's bytes are one opcode byte, or a four-byte command's opcode and two operands. -/
theorem encode_cases (i : Instr) :
    (∃ op, encode i = [op]) ∨ ∃ op reg val, isFourByteOpcode op = true ∧ encode i = [op, reg, val] := by
  cases i with
  | regw reg val => exact .inr ⟨_, reg, val, by decide, rfl⟩
  | clrh => exact .inl ⟨_, rfl⟩
  | rifeq reg thr => exact .inr ⟨_, reg, thr, by decide, rfl⟩
  | riflt reg thr => exact .inr ⟨_, reg, thr, by decide, rfl⟩
  | mode reg val => exact .inr ⟨_, reg, val, by decide, rfl⟩
  | unk op => exact .inl ⟨op, rfl⟩

/-- A command's bytes, exactly, are its frame. -/
theorem decodeFrame_encode_self {i : Instr} (hwf : i.wf = true) :
    decodeFrame (frameOf (encode i)) ((encode i).length + 1) = .ok i := by
  have h := decodeFrame_encode hwf [] (Nat.le_of_eq (frameLen_eq_encode_length i))
  rwa [List.append_nil] at h

/-- A command's bytes run it from idle, one step a byte. -/
theorem run_encode {i : Instr} (hwf : i.wf = true) (l : List Event) (s : State) :
    runSteps (encode i).length (framing [] ((encode i).map Event.rx ++ l) s) =
      exec i { framing [] l s with caller := .delivery } := by
  have hdecode := decodeFrame_encode_self hwf
  obtain ⟨op, hbytes⟩ | ⟨op, reg, val, hop, hbytes⟩ := encode_cases i <;> rw [hbytes] at hdecode ⊢
  · exact run_oneByte hdecode l s
  · exact run_threeBytes hop hdecode l s

/-- Settles O35: the command's bytes run it from idle (`run_encode`), and an idle framer is the one with no bytes under
assembly. -/
theorem commandSentFromIdleRuns : Obligations.CommandSentFromIdleRuns := by
  intro i s rest hwf hidle hscript
  have hstart : s = framing [] ((encode i).map Event.rx ++ rest) s := hscript ▸ hidle.eq_framing
  have hend : { framing [] rest s with caller := .delivery } = { s with caller := .delivery, script := rest } := by
    obtain ⟨hlen, hbuf⟩ := hidle
    rw [hlen, hbuf]
    rfl
  calc runSteps (encode i).length s
    _ = runSteps (encode i).length (framing [] ((encode i).map Event.rx ++ rest) s) := congrArg _ hstart
    _ = exec i { framing [] rest s with caller := .delivery } := run_encode hwf rest s
    _ = exec i { s with caller := .delivery, script := rest } := congrArg _ hend

/-- A byte that completes a command leaves the framer idle, its move taken, and the loop position as it was. -/
theorem step_framing_complete_idle {bs : List Byte} (hroom : bs.length < 9) {b : Byte} {i : Instr}
    (hdecode : decodeFrame (frameOf (bs ++ [b])) (bs.length + 2) = .ok i) (l : List Event) (s : State) :
    ∃ t, step (framing bs (.rx b :: l) s) = .next t ∧ FramerIdle t ∧ t.script = l ∧ t.loopIdx = s.loopIdx := by
  obtain ⟨t, ht⟩ := exec_next i { framing [] l s with caller := .delivery }
  obtain ⟨hbuf, hlen, hidx, _, _, _, hscript, _⟩ := exec_frame ht
  exact ⟨t, (step_framing_complete hroom hdecode l s).trans ht, ⟨hlen, hbuf⟩, hscript, hidx⟩

/-- On an idle framer a byte 0x00 is the unknown opcode 0x00. -/
theorem step_idle_zero {s : State} (hidle : FramerIdle s) {l : List Event} (hscript : s.script = .rx 0x00 :: l) :
    ∃ t, step s = .next t ∧ FramerIdle t ∧ t.script = l ∧ t.loopIdx = s.loopIdx := by
  rw [hidle.eq_framing, hscript]
  exact step_framing_complete_idle (bs := []) (by decide) (decodeFrame_unk (by decide) (by decide)) l s

/-- Settles O36: from idle each 0x00 is a command of its own, after an opcode the two are the operands, and after an
opcode and an operand the first completes the command. -/
theorem twoZeroBytesRegainFraming : Obligations.TwoZeroBytesRegainFraming := by
  intro s rest hshape hscript
  have finish {t : State} (ht : step s = .next t) (hidle : FramerIdle t) (hscript : t.script = .rx 0x00 :: rest)
      (hidx : t.loopIdx = s.loopIdx) :
      ∃ u, runSteps 2 s = .next u ∧ FramerIdle u ∧ u.script = rest ∧ u.loopIdx = s.loopIdx := by
    obtain ⟨u, hu, huidle, huscript, huidx⟩ := step_idle_zero hidle hscript
    exact ⟨u, (runSteps_succ ht).trans (runSteps_one hu), huidle, huscript, huidx.trans hidx⟩
  obtain hidle | ⟨op, hop, hlen, hbuf⟩ | ⟨op, reg, hop, hlen, hbuf⟩ := hshape
  · obtain ⟨t, ht, htidle, htscript, htidx⟩ := step_idle_zero hidle hscript
    exact finish ht htidle htscript htidx
  · obtain ⟨_, hpending⟩ := decodeFrame_frameOf_pending hop [0x00] (n := 3) (by decide)
    obtain ⟨i, hdecode⟩ := decodeFrame_fourByte_total (f := frameOf [op, 0x00, 0x00]) (by simpa using hop)
      (Nat.le_refl 4)
    rw [eq_framing (bs := [op]) hlen hbuf, hscript,
      runSteps_succ (step_framing_pending (bs := [op]) (by decide : 1 < 9) hpending _ s)]
    obtain ⟨t, ht, htidle, htscript, htidx⟩ :=
      step_framing_complete_idle (bs := [op, 0x00]) (by decide : 2 < 9) hdecode rest s
    exact ⟨t, runSteps_one ht, htidle, htscript, htidx⟩
  · obtain ⟨i, hdecode⟩ := decodeFrame_fourByte_total (f := frameOf [op, reg, 0x00]) (by simpa using hop)
      (Nat.le_refl 4)
    obtain ⟨t, ht, htidle, htscript, htidx⟩ :=
      step_framing_complete_idle (bs := [op, reg]) (by decide : 2 < 9) hdecode (.rx 0x00 :: rest) s
    have hstart : s = framing [op, reg] (.rx 0x00 :: .rx 0x00 :: rest) s := hscript ▸ eq_framing hlen hbuf
    exact finish (hstart ▸ ht) htidle htscript htidx

/-- Settles O34: the step is the RX step on a full buffer. -/
theorem fullBufferIsAbandoned : Obligations.FullBufferIsAbandoned := by
  intro s s' b hnext hfull
  rw [step_of_nextEvent hnext, runEvent, rxStep_full hfull, bufReset, frameOf_nil]
  rfl

/-- A table word places all but the last byte of its command, and makes the last byte the next move. -/
theorem withFetchWord_eq_framing {nbits w : Nat} {i : Instr} (h : decodeTableWord nbits w = some i) (s : State) :
    i.wf = true ∧
      s.withFetchWord nbits w = framing (encode i).dropLast (.rx ((encode i).getLastD 0x00) :: s.script) s := by
  have hdecode : ∃ rest, decode (tableBytes nbits w) = .ok (i, rest) := by
    rw [decodeTableWord] at h
    split at h
    case h_1 hd => cases h; exact ⟨_, hd⟩
    case h_2 => cases h
  obtain ⟨rest, hdecode⟩ := hdecode
  obtain ⟨hframe, _⟩ := decode_eq_ok_iff.1 hdecode
  refine ⟨decodeFrame_wf hframe, ?_⟩
  have hlen : (encode i).length = (encode i).dropLast.length + 1 := by
    obtain ⟨op, hbytes⟩ | ⟨op, reg, val, _, hbytes⟩ := encode_cases i <;> rw [hbytes] <;> rfl
  simp only [State.withFetchWord, h, ← encode_eq_take hframe]
  rw [loadWord, framing, ← hlen]

/-- Settles O56: the placed bytes and the next move together are the command's bytes, so the next step completes it. -/
theorem tableWordRunsInTheNextStep : Obligations.TableWordRunsInTheNextStep := by
  intro s nbits w i h
  obtain ⟨hwf, hplaced⟩ := withFetchWord_eq_framing h s
  have hbytes : (encode i).dropLast ++ [(encode i).getLastD 0x00] = encode i ∧ (encode i).dropLast.length < 9 := by
    obtain ⟨op, hbytes⟩ | ⟨op, reg, val, _, hbytes⟩ := encode_cases i <;> rw [hbytes] <;> simp
  obtain ⟨hjoin, hroom⟩ := hbytes
  have hdecode : decodeFrame (frameOf ((encode i).dropLast ++ [(encode i).getLastD 0x00]))
      ((encode i).dropLast.length + 2) = .ok i := by
    have hself := decodeFrame_encode_self hwf
    rw [← hjoin, List.length_append] at hself
    exact hself
  rw [hplaced, step_framing_complete hroom hdecode]
  rfl

end Sys2Proof.Machine

/-! PROOFS. What an agent's step does not read (41_dispatch_immediate.md R131, 44_rule_table_control_loop.md R200,
60_exceptions.md R210): an update of the state that commutes with the named operations commutes with the step. -/

namespace Sys2Proof.Machine

/-- The update `g` touches nothing that an operation other than a HAL read reads or writes. -/
structure CommutesWithOps (g : State → State) : Prop where
  setCaller : ∀ c s, { g s with caller := c } = g { s with caller := c }
  record : ∀ e s, record e (g s) = g (record e s)
  writeDigital : ∀ r b s, writeDigital r b (g s) = g (writeDigital r b s)
  writePWM : ∀ r v s, writePWM r v (g s) = g (writePWM r v s)
  setDirection : ∀ d s, setDirection d (g s) = g (setDirection d s)
  rtAppend : ∀ r s, (rtAppend r (g s)).2 = g (rtAppend r s).2

/-- The update `g` changes no comparison. -/
def CommutesWithCompare (g : State → State) : Prop :=
  ∀ reg thr s, compareRegister reg thr (g s) = ((compareRegister reg thr s).1, g (compareRegister reg thr s).2)

/-- The update `g` touches nothing that the framer reads, and of the framer's own stores nothing at all. -/
structure CommutesWithFramer (g : State → State) : Prop where
  ops : CommutesWithOps g
  buf : ∀ s, (g s).buf = s.buf
  len : ∀ s, (g s).len = s.len
  appendByte : ∀ b s, appendByte b (g s) = g (appendByte b s)
  bufReset : ∀ s, bufReset (g s) = g (bufReset s)

/-- The update `g` touches nothing that the loop reads, and not the loop position. -/
structure CommutesWithLoop (g : State → State) : Prop where
  ops : CommutesWithOps g
  compare : CommutesWithCompare g
  loopIdx : ∀ s, (g s).loopIdx = s.loopIdx
  rtCount : ∀ s, (g s).rtCount = s.rtCount
  rt : ∀ s, (g s).rt = s.rt
  setLoopIdx : ∀ k s, { g s with loopIdx := k } = g { s with loopIdx := k }

theorem CommutesWithOps.caller {g : State → State} (hg : CommutesWithOps g) (s : State) : (g s).caller = s.caller :=
  (congrArg State.caller (hg.setCaller s.caller s)).symm

theorem CommutesWithOps.regWrite {g : State → State} (hg : CommutesWithOps g) (id v : Byte) (s : State) :
    regWrite id v (g s) = g (regWrite id v s) := by
  rw [Machine.regWrite, Machine.regWrite]
  split
  case h_1 => exact hg.writeDigital ..
  case h_2 => exact hg.writePWM ..
  case h_3 => exact hg.writePWM ..
  case h_4 => exact hg.writeDigital ..
  case h_5 => exact hg.writeDigital ..
  case h_6 => exact hg.record ..
  case h_7 => exact hg.writeDigital ..
  case h_8 => exact hg.record ..

theorem CommutesWithOps.configureDirection {g : State → State} (hg : CommutesWithOps g) (id v : Byte) (s : State) :
    configureDirection id v (g s) = g (configureDirection id v s) := by
  rw [Machine.configureDirection, Machine.configureDirection]
  split
  case h_1 => exact hg.setDirection ..
  all_goals exact hg.record ..

theorem CommutesWithOps.raiseIf {g : State → State} (hg : CommutesWithOps g) (hcompare : CommutesWithCompare g)
    (m : Option Int → Bool) (reg thr : Byte) (s : State) : raiseIf m reg thr (g s) = g (raiseIf m reg thr s) := by
  simp only [Machine.raiseIf, hcompare reg thr s]
  split
  · exact hg.writeDigital ..
  · rfl

/-- A command commutes with `g`, if `g` changes no comparison that it makes. -/
theorem CommutesWithOps.exec {g : State → State} (hg : CommutesWithOps g) (i : Instr) {s : State}
    (hcompare : s.caller = .loop → CommutesWithCompare g) : exec i (g s) = mapNext g (exec i s) := by
  cases i with
  | regw reg val => exact congrArg Host.Outcome.next (hg.regWrite reg val s)
  | clrh => exact congrArg Host.Outcome.next (hg.writeDigital .sig false s)
  | mode reg val => exact congrArg Host.Outcome.next (hg.configureDirection reg val s)
  | unk op => exact congrArg Host.Outcome.next (hg.record _ s)
  | rifeq reg thr =>
    cases hc : s.caller with
    | delivery =>
      rw [execRifeq_delivery hc, execRifeq_delivery ((hg.caller s).trans hc), hg.rtAppend, mapNext_next]
    | loop =>
      rw [execRifeq_loop hc, execRifeq_loop ((hg.caller s).trans hc), hg.raiseIf (hcompare hc), mapNext_next]
  | riflt reg thr =>
    cases hc : s.caller with
    | delivery =>
      rw [execRiflt_delivery hc, execRiflt_delivery ((hg.caller s).trans hc), hg.rtAppend, mapNext_next]
    | loop =>
      rw [execRiflt_loop hc, execRiflt_loop ((hg.caller s).trans hc), hg.raiseIf (hcompare hc), mapNext_next]

theorem CommutesWithFramer.rxStep {g : State → State} (hg : CommutesWithFramer g) (b : Byte) (s : State) :
    rxStep b (g s) = mapNext g (rxStep b s) := by
  have hbuf : (g s).buf.setIfInBounds (g s).len b = s.buf.setIfInBounds s.len b := by rw [hg.buf, hg.len]
  by_cases hl : s.len < 10
  · have hl' : (g s).len < 10 := (hg.len s).symm ▸ hl
    cases hd : decodeFrame (s.buf.setIfInBounds s.len b) (s.len + 1) with
    | error e =>
      rw [rxStep_pending hl hd, rxStep_pending hl' (by rw [hbuf, hg.len]; exact hd), hg.appendByte, mapNext_next]
    | ok i =>
      obtain ⟨t, ht⟩ := exec_next i { Machine.appendByte b s with caller := .delivery }
      rw [rxStep_complete hl hd, rxStep_complete hl' (by rw [hbuf, hg.len]; exact hd), hg.appendByte,
        hg.ops.setCaller, hg.ops.exec i (fun hc => by cases hc), ht]
      exact congrArg Host.Outcome.next (hg.bufReset t)
  · have hfull : 10 ≤ s.len := Nat.le_of_not_lt hl
    rw [rxStep_full hfull, rxStep_full ((hg.len s).symm ▸ hfull)]
    exact congrArg Host.Outcome.next ((congrArg Machine.bufReset (hg.ops.record _ s)).trans (hg.bufReset _))

theorem CommutesWithLoop.advanceLoop {g : State → State} (hg : CommutesWithLoop g) (s : State) :
    advanceLoop (g s) = g (advanceLoop s) := by
  rw [Machine.advanceLoop, hg.loopIdx, hg.setLoopIdx]
  rfl

/-- Every frame of length 4 is a command. -/
theorem decodeFrame_four_total (f : Frame) : ∃ i, decodeFrame f 4 = .ok i := by
  cases hop : isFourByteOpcode (byteAt f 1) with
  | true => exact decodeFrame_fourByte_total hop (Nat.le_refl 4)
  | false => exact decodeFrame_twoByte_total hop (by decide)

theorem CommutesWithLoop.loopStep {g : State → State} (hg : CommutesWithLoop g) (s : State) :
    loopStep (g s) = mapNext g (loopStep s) := by
  have hrule : ruleAt (g s) (g s).loopIdx = ruleAt s s.loopIdx := by rw [ruleAt, hg.rt, hg.loopIdx]; rfl
  by_cases hl : s.loopIdx < s.rtCount
  · have hl' : (g s).loopIdx < (g s).rtCount := by rw [hg.loopIdx, hg.rtCount]; exact hl
    obtain ⟨i, hi⟩ := decodeFrame_four_total (ruleAt s s.loopIdx).frame
    obtain ⟨t, ht⟩ := exec_next i { s with caller := .loop }
    rw [loopStep_evaluate hl hi, loopStep_evaluate hl' (hrule ▸ hi), hg.ops.setCaller,
      hg.ops.exec i (fun _ => hg.compare), ht]
    exact congrArg Host.Outcome.next (hg.advanceLoop t)
  · have hwrap : s.rtCount ≤ s.loopIdx := Nat.le_of_not_lt hl
    rw [loopStep_wrap hwrap, loopStep_wrap (by rw [hg.loopIdx, hg.rtCount]; exact hwrap), hg.setLoopIdx]
    rfl

/-! ### The inputs, the loop position, the buffer and the history -/

/-- Other inputs. -/
def withInputs (v : Byte) (g : Bit) (s : State) : State := { s with ain := v, gpioPin := g }

/-- Another loop position. -/
def withLoopIdx (k : Nat) (s : State) : State := { s with loopIdx := k }

/-- Another frame under assembly. -/
def withBuffer (f : Frame) (n : Nat) (s : State) : State := { s with buf := f, len := n }

/-- Older entries below the recorded history. -/
def withOlderHistory (h : List Happening) (s : State) : State := { s with history := s.history ++ h }

/-- An update commutes with an append if it leaves the count, commutes with the two writes of an append with room, and
with the record. -/
theorem rtAppend_commutes {g : State → State} (hcount : ∀ s, (g s).rtCount = s.rtCount)
    (hstore : ∀ r s, { g s with rt := (g s).rt.setIfInBounds s.rtCount r, rtCount := s.rtCount + 1 } =
      g { s with rt := s.rt.setIfInBounds s.rtCount r, rtCount := s.rtCount + 1 })
    (hrecord : ∀ e s, record e (g s) = g (record e s)) (r : Rule) (s : State) :
    (rtAppend r (g s)).2 = g (rtAppend r s).2 := by
  by_cases hroom : s.rtCount < params.ruleCapacity
  · rw [rtAppend_room r hroom, rtAppend_room r ((hcount s).symm ▸ hroom), hcount]
    exact hstore r s
  · rw [rtAppend_full r hroom, rtAppend_full r ((hcount s).symm ▸ hroom)]
    exact hrecord _ s

/-- Other values in the fields that no command writes. -/
def modifyUnwritten (buf : Frame → Frame) (len loopIdx : Nat → Nat) (ain : Byte → Byte) (pin : Bit → Bit) (s : State) :
    State :=
  { s with buf := buf s.buf, len := len s.len, loopIdx := loopIdx s.loopIdx, ain := ain s.ain, gpioPin := pin s.gpioPin }

theorem modifyUnwritten_commutesWithOps (buf : Frame → Frame) (len loopIdx : Nat → Nat) (ain : Byte → Byte)
    (pin : Bit → Bit) : CommutesWithOps (modifyUnwritten buf len loopIdx ain pin) where
  setCaller := fun _ _ => rfl
  record := fun _ _ => rfl
  writeDigital := fun r _ _ => by cases r <;> rfl
  writePWM := fun r _ _ => by cases r <;> rfl
  setDirection := fun _ _ => rfl
  rtAppend := rtAppend_commutes (fun _ => rfl) (fun _ _ => rfl) (fun _ _ => rfl)

theorem withInputs_commutesWithFramer (v : Byte) (g : Bit) : CommutesWithFramer (withInputs v g) where
  ops := modifyUnwritten_commutesWithOps id id id (fun _ => v) (fun _ => g)
  buf := fun _ => rfl
  len := fun _ => rfl
  appendByte := fun _ _ => rfl
  bufReset := fun _ => rfl

theorem withLoopIdx_commutesWithFramer (k : Nat) : CommutesWithFramer (withLoopIdx k) where
  ops := modifyUnwritten_commutesWithOps id id (fun _ => k) id id
  buf := fun _ => rfl
  len := fun _ => rfl
  appendByte := fun _ _ => rfl
  bufReset := fun _ => rfl

theorem withBuffer_commutesWithLoop (f : Frame) (n : Nat) : CommutesWithLoop (withBuffer f n) where
  ops := modifyUnwritten_commutesWithOps (fun _ => f) (fun _ => n) id id id
  compare := fun reg thr s => by unfold compareRegister; split <;> rfl
  loopIdx := fun _ => rfl
  rtCount := fun _ => rfl
  rt := fun _ => rfl
  setLoopIdx := fun _ _ => rfl

theorem withOlderHistory_commutesWithOps (h : List Happening) : CommutesWithOps (withOlderHistory h) where
  setCaller := fun _ _ => rfl
  record := fun _ _ => rfl
  writeDigital := fun r _ _ => by cases r <;> rfl
  writePWM := fun r _ _ => by cases r <;> rfl
  setDirection := fun _ _ => rfl
  rtAppend := rtAppend_commutes (fun _ => rfl) (fun _ _ => rfl) (fun _ _ => rfl)

theorem withOlderHistory_commutesWithFramer (h : List Happening) : CommutesWithFramer (withOlderHistory h) :=
  ⟨withOlderHistory_commutesWithOps h, fun _ => rfl, fun _ => rfl, fun _ _ => rfl, fun _ => rfl⟩

theorem withOlderHistory_commutesWithLoop (h : List Happening) : CommutesWithLoop (withOlderHistory h) where
  ops := withOlderHistory_commutesWithOps h
  compare := fun reg thr s => by unfold compareRegister; split <;> rfl
  loopIdx := fun _ => rfl
  rtCount := fun _ => rfl
  rt := fun _ => rfl
  setLoopIdx := fun _ _ => rfl

/-- Settles O37: the framer and the commands it runs in store mode read no input. -/
theorem rxStepNeverReadsInputs : Obligations.RxStepNeverReadsInputs :=
  fun b v g s => (withInputs_commutesWithFramer v g).rxStep b s

/-! ### The stores of each agent -/

/-- Settles O43: the write frame is read off each move, and the two noninterference equations are those of
`withBuffer` and `withLoopIdx`. -/
theorem eachAgentKeepsToItsOwnStores : Obligations.EachAgentKeepsToItsOwnStores := by
  refine ⟨fun e s t h he => ?_, fun s f n => (withBuffer_commutesWithLoop f n).loopStep s,
    fun b s k => (withLoopIdx_commutesWithFramer k).rxStep b s⟩
  cases e with
  | rx b => exact ⟨fun hrx => absurd rfl (hrx b), fun _ => rxStep_loopIdx h⟩
  | loop => exact ⟨fun _ => ⟨loopStep_sameFramer h, loopStep_sameTable h⟩, fun hloop => absurd rfl hloop⟩
  | ain v => cases h; exact ⟨fun _ => ⟨⟨rfl, rfl⟩, rfl, rfl⟩, fun _ => rfl⟩
  | sample raw => cases h; exact ⟨fun _ => ⟨⟨rfl, rfl⟩, rfl, rfl⟩, fun _ => rfl⟩
  | gpioPin g => cases h; exact ⟨fun _ => ⟨⟨rfl, rfl⟩, rfl, rfl⟩, fun _ => rfl⟩
  | reset => exact absurd rfl he

/-! ### The history -/

theorem mapNext_forgetHistory_withOlderHistory (h : List Happening) (o : Host.Outcome State Fault Refusal) :
    mapNext forgetHistory (mapNext (withOlderHistory h) o) = mapNext forgetHistory o := by
  cases o <;> rfl

/-- Every move does the same above any older history; a reset forgets it. -/
theorem runEvent_withOlderHistory (e : Event) (h : List Happening) (s : State) :
    mapNext forgetHistory (runEvent e (withOlderHistory h s)) = mapNext forgetHistory (runEvent e s) := by
  cases e with
  | rx b =>
    rw [runEvent, (withOlderHistory_commutesWithFramer h).rxStep, mapNext_forgetHistory_withOlderHistory]
    rfl
  | loop =>
    rw [runEvent, (withOlderHistory_commutesWithLoop h).loopStep, mapNext_forgetHistory_withOlderHistory]
    rfl
  | ain v => rfl
  | sample raw => rfl
  | gpioPin g => rfl
  | reset => rfl

theorem nextEvent_withOlderHistory (h : List Happening) (s : State) :
    nextEvent (withOlderHistory h s) = ((nextEvent s).1, withOlderHistory h (nextEvent s).2) := by
  cases hscript : s.script with
  | nil => simp [nextEvent, withOlderHistory, hscript]
  | cons e rest =>
    rw [nextEvent_cons hscript]
    exact nextEvent_cons (s := withOlderHistory h s) hscript

theorem step_withOlderHistory (h : List Happening) (s : State) :
    mapNext forgetHistory (step (withOlderHistory h s)) = mapNext forgetHistory (step s) := by
  rw [step, nextEvent_withOlderHistory]
  exact runEvent_withOlderHistory _ h _

/-- Settles O50: every state is its history put below the state that has none, and a step does the same above any
older history. -/
theorem historyNeverInfluencesAStep : Obligations.HistoryNeverInfluencesAStep := by
  intro s h
  calc mapNext forgetHistory (step { s with history := h })
    _ = mapNext forgetHistory (step (forgetHistory s)) := step_withOlderHistory h (forgetHistory s)
    _ = mapNext forgetHistory (step s) := (step_withOlderHistory s.history (forgetHistory s)).symm

end Sys2Proof.Machine

/-! PROOFS. The control loop (44_rule_table_control_loop.md R194 to R197): one evaluation, and a whole pass. -/

namespace Sys2Proof.Machine

/-- Settles O38: the step is the LOOP step, which evaluates the stored rule's frame or wraps. -/
theorem loopStepRunsTheStoredRule : Obligations.LoopStepRunsTheStoredRule := by
  intro s s' hnext
  have hstep : step s = loopStep s' := step_of_nextEvent hnext
  constructor
  · rintro hl r i rfl hdecode
    exact hstep.trans (loopStep_evaluate hl hdecode)
  · intro hwrap
    exact hstep.trans (loopStep_wrap hwrap)

/-- What the loop leaves of the block: the framer, the table and every output but the signal. -/
def SameButSignal (s t : State) : Prop := SameFramer s t ∧ SameTable s t ∧ SameOutputs s t

theorem SameButSignal.trans {s t u : State} (hst : SameButSignal s t) (htu : SameButSignal t u) :
    SameButSignal s u := by
  simp only [SameButSignal, SameFramer, SameTable, SameOutputs] at hst htu ⊢
  simp only [htu, hst, and_self]

/-- A LOOP step on a stored rule ORs its condition into the signal, advances, and leaves the rest. -/
theorem loopStep_evaluates {s : State} (hshape : TableShape s) (hl : s.loopIdx < s.rtCount) :
    ∃ t, loopStep s = .next t ∧ t.loopIdx = s.loopIdx + 1 ∧
      t.sig = (s.sig || ruleHolds (ruleAt s s.loopIdx) s) ∧ SameButSignal s t := by
  obtain ⟨e, _, hstep⟩ := loopStep_storedRule hshape hl
  obtain ⟨hframer, htable, hidx, _, houtputs⟩ :=
    evaluated_frame (ruleHolds (ruleAt s s.loopIdx) s) e { s with caller := .loop }
  exact ⟨_, hstep, congrArg (· + 1) hidx, evaluated_sig .., hframer, htable, houtputs⟩

/-- Settles O39: the step is the LOOP step on a stored rule. -/
theorem evaluationRaisesSignalExactlyOnMatch : Obligations.EvaluationRaisesSignalExactlyOnMatch := by
  intro s s' hnext hshape hl
  rw [step_of_nextEvent hnext]
  exact loopStep_evaluates hshape hl

/-- The condition of a rule reads, of the outputs, at most the GPIO-1 latch and direction. -/
theorem ruleHolds_of_sameOutputs {s t : State} (h : SameOutputs s t) (r : Rule) (v : Byte) (g : Bit) :
    ruleHolds r { t with ain := v, gpioPin := g } = ruleHolds r { s with ain := v, gpioPin := g } := by
  obtain ⟨_, _, _, _, hout, hdir⟩ := h
  simp only [ruleHolds, comparedValue, gpioLevel, hout, hdir]

/-- The moves of one evaluation with fresh inputs. -/
def sampledLoop (p : Byte × Bit) : List Event := [.ain p.1, .gpioPin p.2, .loop]

/-- Two input changes and a LOOP step evaluate the rule at the loop position under the new inputs. -/
theorem run_sampledLoop {s : State} (hshape : TableShape s) (hl : s.loopIdx < s.rtCount) {p : Byte × Bit}
    {l : List Event} (hscript : s.script = sampledLoop p ++ l) (n : Nat) :
    ∃ t, runSteps (n + 3) s = runSteps n t ∧ t.loopIdx = s.loopIdx + 1 ∧ t.script = l ∧ TableShape t ∧
      t.sig = (s.sig || ruleHolds (ruleAt s s.loopIdx) { s with ain := p.1, gpioPin := p.2 }) ∧
      SameButSignal s t := by
  have hshape' : TableShape { s with ain := p.1, gpioPin := p.2, script := l } := hshape
  obtain ⟨t, ht, hidx, hsig, hsame⟩ := loopStep_evaluates hshape' hl
  have hain : step s = .next { s with ain := p.1, script := .gpioPin p.2 :: .loop :: l } :=
    step_of_nextEvent (nextEvent_cons hscript)
  have hpin : step { s with ain := p.1, script := .gpioPin p.2 :: .loop :: l } =
      .next { s with ain := p.1, gpioPin := p.2, script := .loop :: l } :=
    step_cons (.gpioPin p.2) (.loop :: l) { s with ain := p.1 }
  have hloop : step { s with ain := p.1, gpioPin := p.2, script := .loop :: l } = .next t :=
    (step_cons .loop l { s with ain := p.1, gpioPin := p.2 }).trans ht
  exact ⟨t, by rw [runSteps_succ hain, runSteps_succ hpin, runSteps_succ hloop], hidx, loopStep_script ht,
    loopStep_tableShape hshape' ht, hsig, hsame⟩

/-- The rules of `s` from index `k` on, against one sample each: some condition holds. -/
def someHolds (s : State) (samples : List (Byte × Bit)) (k : Nat) : Bool :=
  (samples.zipIdx k).any fun p => ruleHolds (ruleAt s p.2) { s with ain := p.1.1, gpioPin := p.1.2 }

theorem someHolds_nil (s : State) (k : Nat) : someHolds s [] k = false := rfl

theorem someHolds_cons (s : State) (p : Byte × Bit) (samples : List (Byte × Bit)) (k : Nat) :
    someHolds s (p :: samples) k =
      (ruleHolds (ruleAt s k) { s with ain := p.1, gpioPin := p.2 } || someHolds s samples (k + 1)) := by
  simp only [someHolds, List.zipIdx_cons, List.any_cons]

theorem someHolds_of_same {s t : State} (h : SameButSignal s t) (samples : List (Byte × Bit)) (k : Nat) :
    someHolds t samples k = someHolds s samples k := by
  obtain ⟨_, htable, houtputs⟩ := h
  simp only [someHolds, htable.ruleAt_eq, ruleHolds_of_sameOutputs houtputs]

/-- A pass from any loop position on, with one sample for each rule left, by induction on the samples. -/
theorem run_pass (samples : List (Byte × Bit)) (rest : List Event) (s : State) (hshape : TableShape s)
    (hcount : s.loopIdx + samples.length = s.rtCount)
    (hscript : s.script = samples.flatMap sampledLoop ++ .loop :: rest) :
    ∃ t, runSteps (3 * samples.length + 1) s = .next t ∧ t.loopIdx = 0 ∧ t.script = rest ∧ SameButSignal s t ∧
      t.sig = (s.sig || someHolds s samples s.loopIdx) := by
  induction samples generalizing s with
  | nil =>
    have hwrap : s.rtCount ≤ s.loopIdx := Nat.le_of_eq hcount.symm
    have hstep : step s = .next { s with script := rest, loopIdx := 0 } :=
      (step_of_nextEvent (nextEvent_cons hscript)).trans (loopStep_wrap (s := { s with script := rest }) hwrap)
    exact ⟨_, runSteps_one hstep, rfl, rfl, ⟨⟨rfl, rfl⟩, ⟨rfl, rfl⟩, rfl, rfl, rfl, rfl, rfl, rfl⟩,
      by rw [someHolds_nil, Bool.or_false]⟩
  | cons p samples ih =>
    rw [List.length_cons] at hcount
    rw [List.flatMap_cons, List.append_assoc] at hscript
    obtain ⟨u, hrun, huidx, huscript, hushape, husig, hsame⟩ :=
      run_sampledLoop hshape (by omega) hscript (3 * samples.length + 1)
    have hucount : u.loopIdx + samples.length = u.rtCount := by
      obtain ⟨_, htable, _⟩ := hsame
      rw [htable.rtCount_eq, huidx]
      omega
    obtain ⟨t, ht, htidx, htscript, hsame', htsig⟩ := ih u hushape hucount huscript
    refine ⟨t, hrun.trans ht, htidx, htscript, hsame.trans hsame', ?_⟩
    rw [htsig, husig, huidx, someHolds_of_same hsame, someHolds_cons, Bool.or_assoc]

/-- Settles O40: the pass from loop position 0 on (`run_pass`). -/
theorem passRaisesSignalByOr : Obligations.PassRaisesSignalByOr := by
  intro s samples rest hshape hidx hlength hscript
  obtain ⟨t, hrun, htidx, htscript, ⟨hframer, htable, houtputs⟩, hsig⟩ :=
    run_pass samples rest s hshape (by omega) hscript
  rw [hlength] at hrun
  rw [hidx] at hsig
  exact ⟨t, hrun, htidx, htscript, htable, hframer, houtputs, hsig⟩

end Sys2Proof.Machine

/-! PROOFS. Who changes what (10_state.md R31 and R35, 41_dispatch_immediate.md section 6): the inputs change by the
environment's moves, and each output by the commands that name it. -/

namespace Sys2Proof.Machine

/-- Settles O45: the convention of `nextEvent`. -/
theorem scriptGivesTheNextMove : Obligations.ScriptGivesTheNextMove := by
  intro s e rest hscript
  exact ⟨nextEvent_cons hscript, step_of_nextEvent (nextEvent_cons hscript)⟩

/-! ### The inputs -/

/-- The inputs are the same in both states. -/
def SameInputs (s t : State) : Prop := t.ain = s.ain ∧ t.gpioPin = s.gpioPin

theorem exec_sameInputs {i : Instr} {s t : State} (h : exec i s = .next t) : SameInputs s t := by
  obtain ⟨_, _, _, hain, hpin, _⟩ := exec_frame h
  exact ⟨hain, hpin⟩

theorem rxStep_sameInputs {b : Byte} {s t : State} (h : rxStep b s = .next t) : SameInputs s t := by
  obtain ⟨_, rfl⟩ | ⟨_, _, _, rfl⟩ | ⟨_, i, u, _, hu, rfl⟩ := rxStep_cases h
  · exact ⟨rfl, rfl⟩
  · exact ⟨rfl, rfl⟩
  · have hexec : SameInputs { appendByte b s with caller := .delivery } u := exec_sameInputs hu
    exact hexec

theorem loopStep_sameInputs {s t : State} (h : loopStep s = .next t) : SameInputs s t := by
  obtain ⟨_, rfl⟩ | ⟨_, i, u, _, hu, rfl⟩ := loopStep_cases h
  · exact ⟨rfl, rfl⟩
  · have hexec : SameInputs { s with caller := .loop } u := exec_sameInputs hu
    exact hexec

/-- Settles O46: each input change is one assignment, and neither the two agents' steps nor a reset make one. -/
theorem onlyTheEnvironmentChangesInputs : Obligations.OnlyTheEnvironmentChangesInputs := by
  refine ⟨fun _ _ => rfl, fun _ _ => rfl, fun raw _ => ⟨reducedSample raw, rfl⟩, fun e s t h => ?_⟩
  have same (hs : SameInputs s t) :
      ((∀ v, e ≠ .ain v) → (∀ raw, e ≠ .sample raw) → t.ain = s.ain) ∧
      ((∀ g, e ≠ .gpioPin g) → t.gpioPin = s.gpioPin) := ⟨fun _ _ => hs.1, fun _ => hs.2⟩
  cases e with
  | rx b => exact same (rxStep_sameInputs h)
  | loop => exact same (loopStep_sameInputs h)
  | ain v => cases h; exact ⟨fun hain _ => absurd rfl (hain v), fun _ => rfl⟩
  | sample raw => cases h; exact ⟨fun _ hsample => absurd rfl (hsample raw), fun _ => rfl⟩
  | gpioPin g => cases h; exact ⟨fun _ _ => rfl, fun hpin => absurd rfl (hpin g)⟩
  | reset => cases h; exact same ⟨rfl, rfl⟩

/-! ### The outputs -/

/-- The commands that issue a HAL write in store mode, each with the write. -/
inductive IssuesWrite : Instr → HalOp → Prop
  | digital (r : BoolReg) (v : Byte) : IssuesWrite (.regw r.idByte v) (.writeDigital r (quant v))
  | pwm (r : PwmReg) (v : Byte) : IssuesWrite (.regw r.idByte v) (.writePWM r v)
  | clear : IssuesWrite .clrh (.writeDigital .sig false)
  | direction (v : Byte) : IssuesWrite (.mode 0x06 v) (.setDirection (params.dirDecode v))

theorem shadow_writeDigital (r : BoolReg) (b : Bit) (s : State) :
    (writeDigital r b s).shadow = (Happening.hal (.writeDigital r b)).applyTo s.shadow := by
  cases r <;> rfl

theorem shadow_writePWM (r : PwmReg) (v : Byte) (s : State) :
    (writePWM r v s).shadow = (Happening.hal (.writePWM r v)).applyTo s.shadow := by
  cases r <;> rfl

theorem shadow_rtAppend (r : Rule) (s : State) : (rtAppend r s).2.shadow = s.shadow := by
  by_cases hroom : s.rtCount < params.ruleCapacity
  · rw [rtAppend_room r hroom]; rfl
  · rw [rtAppend_full r hroom]; rfl

/-- In store mode a command leaves the outputs, or issues the one write of `IssuesWrite`. -/
theorem exec_delivery_shadow {i : Instr} {s t : State} (hc : s.caller = .delivery) (h : exec i s = .next t) :
    t.shadow = s.shadow ∨ ∃ op, IssuesWrite i op ∧ t.shadow = (Happening.hal op).applyTo s.shadow := by
  cases i with
  | regw id v =>
    cases h
    obtain ⟨r, rfl, h⟩ | ⟨r, rfl, h⟩ | ⟨c, h⟩ := regWrite_idByte_cases id v s <;> rw [h]
    · exact .inr ⟨_, .digital r v, shadow_writeDigital r _ s⟩
    · exact .inr ⟨_, .pwm r v, shadow_writePWM r v s⟩
    · exact .inl rfl
  | clrh => cases h; exact .inr ⟨_, .clear, shadow_writeDigital .sig false s⟩
  | mode id v =>
    cases h
    obtain ⟨rfl, h⟩ | ⟨_, c, h⟩ := configureDirection_cases id v s <;> rw [h]
    · exact .inr ⟨_, .direction v, rfl⟩
    · exact .inl rfl
  | unk op => cases h; exact .inl rfl
  | rifeq reg thr => rw [execRifeq_delivery hc] at h; cases h; exact .inl (shadow_rtAppend _ s)
  | riflt reg thr => rw [execRiflt_delivery hc] at h; cases h; exact .inl (shadow_rtAppend _ s)

/-- The RX step of `b` in `s` completes a command that issues the write `op`. -/
def RxWrites (b : Byte) (s : State) (i : Instr) (op : HalOp) : Prop := RxCompletes b s i ∧ IssuesWrite i op

theorem rxStep_shadow_cases {b : Byte} {s t : State} (h : rxStep b s = .next t) :
    t.shadow = s.shadow ∨ ∃ i op, RxWrites b s i op ∧ t.shadow = (Happening.hal op).applyTo s.shadow := by
  obtain ⟨_, rfl⟩ | ⟨_, _, _, rfl⟩ | ⟨hroom, i, u, hdecode, hu, rfl⟩ := rxStep_cases h
  · exact .inl rfl
  · exact .inl rfl
  · exact (exec_delivery_shadow rfl hu).imp_right
      fun ⟨op, hop, hshadow⟩ => ⟨i, op, ⟨⟨hroom, hdecode⟩, hop⟩, hshadow⟩

/-- Over stored rules a LOOP step leaves the outputs, or a rule that holds raises the signal. -/
theorem loopStep_shadow_cases {s t : State} (hshape : TableShape s) (h : loopStep s = .next t) :
    t.shadow = s.shadow ∨ (s.loopIdx < s.rtCount ∧ ruleHolds (ruleAt s s.loopIdx) s = true ∧
      t.shadow = (Happening.hal (.writeDigital .sig true)).applyTo s.shadow) := by
  by_cases hl : s.loopIdx < s.rtCount
  · obtain ⟨e, _, hstep⟩ := loopStep_storedRule hshape hl
    cases h.symm.trans hstep
    cases hholds : ruleHolds (ruleAt s s.loopIdx) s with
    | false => exact .inl rfl
    | true => exact .inr ⟨hl, rfl, rfl⟩
  · cases h.symm.trans (loopStep_wrap (Nat.le_of_not_lt hl))
    exact .inl rfl

/-- Every way a move other than a reset can change an output. -/
theorem runEvent_shadow_cases {e : Event} {s t : State} (hshape : TableShape s) (he : e ≠ .reset)
    (h : runEvent e s = .next t) :
    t.shadow = s.shadow ∨
    (e = .loop ∧ s.loopIdx < s.rtCount ∧ ruleHolds (ruleAt s s.loopIdx) s = true ∧
      t.shadow = (Happening.hal (.writeDigital .sig true)).applyTo s.shadow) ∨
    ∃ b i op, e = .rx b ∧ RxWrites b s i op ∧ t.shadow = (Happening.hal op).applyTo s.shadow := by
  cases e with
  | rx b =>
    exact (rxStep_shadow_cases h).imp_right fun ⟨i, op, hwrites, hshadow⟩ => .inr ⟨b, i, op, rfl, hwrites, hshadow⟩
  | loop => exact (loopStep_shadow_cases hshape h).imp_right fun hraise => .inl ⟨rfl, hraise⟩
  | ain v => cases h; exact .inl rfl
  | sample raw => cases h; exact .inl rfl
  | gpioPin g => cases h; exact .inl rfl
  | reset => exact absurd rfl he

theorem nextEvent_shadow {s s' : State} {e : Event} (h : nextEvent s = (e, s')) : s'.shadow = s.shadow := by
  obtain ⟨l, d, hs⟩ := nextEvent_snd s
  rw [h] at hs
  subst hs
  rfl

/-- The level a boolean register has in a shadow. -/
def BoolReg.level : BoolReg → Shadow → Bit
  | .sig, w => w.sig
  | .m1dir, w => w.dir1
  | .m2dir, w => w.dir2
  | .gpio1, w => w.gpioOut

/-- A write that changes a boolean register's level is a `WriteDigital` to it. -/
theorem applyTo_changes_level {r : BoolReg} {op : HalOp} {w : Shadow}
    (h : r.level ((Happening.hal op).applyTo w) ≠ r.level w) :
    ∃ b, op = .writeDigital r b ∧ r.level ((Happening.hal op).applyTo w) = b := by
  cases op with
  | writeDigital r' b =>
    have hreg : r' = r := by
      by_contra hne
      revert hne h
      cases r' <;> cases r <;> simp [BoolReg.level, Happening.applyTo]
    subst hreg
    exact ⟨b, rfl, by cases r' <;> rfl⟩
  | writePWM r' v => exact absurd (by cases r' <;> cases r <;> rfl) h
  | readAnalog v => exact absurd rfl h
  | readDigital g => exact absurd rfl h
  | setDirection d => exact absurd (by cases r <;> rfl) h

/-- A write that changes the GPIO-1 direction is a `SetDirection`. -/
theorem applyTo_changes_gpioDir {op : HalOp} {w : Shadow}
    (h : ((Happening.hal op).applyTo w).gpioDir ≠ w.gpioDir) :
    ∃ d, op = .setDirection d ∧ ((Happening.hal op).applyTo w).gpioDir = d := by
  cases op with
  | setDirection d => exact ⟨d, rfl, rfl⟩
  | writeDigital r b => exact absurd (by cases r <;> rfl) h
  | writePWM r v => exact absurd (by cases r <;> rfl) h
  | readAnalog v => exact absurd rfl h
  | readDigital g => exact absurd rfl h

/-- A `WriteDigital` is issued by the REGW of its register, or is CLRH's write of 0 to the signal. -/
theorem IssuesWrite.digital_cases {i : Instr} {r : BoolReg} {b : Bit} (h : IssuesWrite i (.writeDigital r b)) :
    (∃ v, i = .regw r.idByte v ∧ b = decide (v ≠ 0x00)) ∨ (r = .sig ∧ i = .clrh ∧ b = false) := by
  cases h with
  | digital r v => exact .inl ⟨v, rfl, rfl⟩
  | clear => exact .inr ⟨rfl, rfl, rfl⟩

theorem IssuesWrite.direction_eq {i : Instr} {d : Dir} (h : IssuesWrite i (.setDirection d)) :
    ∃ v, i = .mode 0x06 v ∧ d = params.dirDecode v := by
  cases h with
  | direction v => exact ⟨v, rfl, rfl⟩

/-- A move that changes a boolean register is a LOOP step that raises the signal, or the RX step that completes a command
which writes the register. -/
theorem step_changes_level (r : BoolReg) {s s' t : State} {e : Event} (hnext : nextEvent s = (e, s'))
    (hshape : TableShape s') (hstep : step s = .next t) (he : e ≠ .reset)
    (hne : r.level t.shadow ≠ r.level s.shadow) :
    (r = .sig ∧ e = .loop ∧ s'.loopIdx < s'.rtCount ∧ ruleHolds (ruleAt s' s'.loopIdx) s' = true ∧
      r.level t.shadow = true) ∨
    ∃ b i, e = .rx b ∧ RxCompletes b s' i ∧ IssuesWrite i (.writeDigital r (r.level t.shadow)) := by
  rw [step_of_nextEvent hnext] at hstep
  rw [← nextEvent_shadow hnext] at hne
  obtain hsame | ⟨hloop, hl, hholds, hshadow⟩ | ⟨b, i, op, hrx, ⟨hcompletes, hop⟩, hshadow⟩ :=
    runEvent_shadow_cases hshape he hstep
  · exact absurd (congrArg r.level hsame) hne
  · rw [hshadow] at hne ⊢
    obtain ⟨_, heq, hlevel⟩ := applyTo_changes_level hne
    cases heq
    exact .inl ⟨rfl, hloop, hl, hholds, hlevel⟩
  · rw [hshadow] at hne ⊢
    obtain ⟨_, rfl, hlevel⟩ := applyTo_changes_level hne
    exact .inr ⟨b, i, hrx, hcompletes, hlevel.symm ▸ hop⟩

/-- A motor direction or the GPIO-1 latch changes by the REGW of its register alone. -/
theorem step_changes_level_by_regw {r : BoolReg} (hr : r ≠ .sig) {s s' t : State} {e : Event}
    (hnext : nextEvent s = (e, s')) (hshape : TableShape s') (hstep : step s = .next t) (he : e ≠ .reset)
    (hne : r.level t.shadow ≠ r.level s.shadow) :
    ∃ v, (∃ b, e = .rx b ∧ RxCompletes b s' (.regw r.idByte v)) ∧ r.level t.shadow = decide (v ≠ 0x00) := by
  obtain ⟨hsig, _⟩ | ⟨b, i, hrx, hcompletes, hop⟩ := step_changes_level r hnext hshape hstep he hne
  · exact absurd hsig hr
  · obtain ⟨v, rfl, hv⟩ | ⟨hsig, _⟩ := hop.digital_cases
    · exact ⟨v, ⟨b, hrx, hcompletes⟩, hv⟩
    · exact absurd hsig hr

/-- The GPIO-1 direction changes by a MODE to GPIO-1 alone. -/
theorem step_changes_gpioDir {s s' t : State} {e : Event} (hnext : nextEvent s = (e, s')) (hshape : TableShape s')
    (hstep : step s = .next t) (he : e ≠ .reset) (hne : t.gpioDir ≠ s.gpioDir) :
    ∃ v, (∃ b, e = .rx b ∧ RxCompletes b s' (.mode 0x06 v)) ∧ t.gpioDir = params.dirDecode v := by
  rw [step_of_nextEvent hnext] at hstep
  have hdir (u : State) : u.gpioDir = u.shadow.gpioDir := rfl
  rw [hdir, hdir, ← nextEvent_shadow hnext] at hne
  rw [hdir]
  obtain hsame | ⟨_, _, _, hshadow⟩ | ⟨b, i, op, hrx, ⟨hcompletes, hop⟩, hshadow⟩ :=
    runEvent_shadow_cases hshape he hstep
  · exact absurd (congrArg Shadow.gpioDir hsame) hne
  · exact absurd (congrArg Shadow.gpioDir hshadow) hne
  · rw [hshadow] at hne ⊢
    obtain ⟨d, rfl, hd⟩ := applyTo_changes_gpioDir hne
    obtain ⟨v, rfl, rfl⟩ := hop.direction_eq
    exact ⟨v, ⟨b, hrx, hcompletes⟩, hd⟩

/-- Settles O48: the signal changes by a raise of a LOOP step, by its REGW or by CLRH (`step_changes_level`). -/
theorem signalChangesOnlyByNamedMoves : Obligations.SignalChangesOnlyByNamedMoves := by
  intro s s' t e hnext hshape hstep hne
  by_cases he : e = .reset
  · exact .inl he
  · obtain ⟨_, hloop, hl, hholds, hlevel⟩ | ⟨b, i, hrx, ⟨hroom, hdecode⟩, hop⟩ :=
      step_changes_level .sig hnext hshape hstep he hne
    · exact .inr (.inl ⟨hloop, hl, hholds, hlevel⟩)
    · refine .inr (.inr ⟨b, hrx, hroom, ?_⟩)
      obtain ⟨v, rfl, hv⟩ | ⟨_, rfl, hlow⟩ := hop.digital_cases
      · exact .inr ⟨v, hdecode, hv⟩
      · exact .inl ⟨hdecode, hlow⟩

/-- The RX step that completes a REGW to a boolean register leaves the quantised operand there. -/
theorem rxStep_regw_level {r : BoolReg} {b v : Byte} {s : State} (h : RxCompletes b s (.regw r.idByte v)) :
    ∃ t, rxStep b s = .next t ∧ r.level t.shadow = decide (v ≠ 0x00) := by
  obtain ⟨hroom, hdecode⟩ := h
  exact ⟨_, rxStep_complete hroom hdecode, by cases r <;> rfl⟩

theorem rxStep_mode_gpioDir {b v : Byte} {s : State} (h : RxCompletes b s (.mode 0x06 v)) :
    ∃ t, rxStep b s = .next t ∧ t.gpioDir = params.dirDecode v := by
  obtain ⟨hroom, hdecode⟩ := h
  exact ⟨_, rxStep_complete hroom hdecode, rfl⟩

/-- Settles O57: the completing RX step leaves the operand (`rxStep_regw_level`, `rxStep_mode_gpioDir`), and nothing else
changes the register (`step_changes_level_by_regw`, `step_changes_gpioDir`). -/
theorem outputsChangeOnlyByTheirCommand : Obligations.OutputsChangeOnlyByTheirCommand := by
  constructor
  · intro s s' b v hnext hroom completes
    have hstep : step s = rxStep b s' := step_of_nextEvent hnext
    rw [hstep]
    exact ⟨fun h => rxStep_regw_level (r := .sig) ⟨hroom, h⟩, fun h => rxStep_regw_level (r := .m1dir) ⟨hroom, h⟩,
      fun h => rxStep_regw_level (r := .m2dir) ⟨hroom, h⟩, fun h => rxStep_regw_level (r := .gpio1) ⟨hroom, h⟩,
      fun h => rxStep_mode_gpioDir ⟨hroom, h⟩⟩
  · intro s s' t e hnext hshape hstep he completed
    exact ⟨step_changes_level_by_regw (r := .m1dir) nofun hnext hshape hstep he,
      step_changes_level_by_regw (r := .m2dir) nofun hnext hshape hstep he,
      step_changes_level_by_regw (r := .gpio1) nofun hnext hshape hstep he,
      step_changes_gpioDir hnext hshape hstep he⟩

end Sys2Proof.Machine
